-- ==== Sys2Proof/Word.lean ====
section
/-!
DEFINITION. The word types of the ANPP checksum block: everything is an unsigned bit vector of a
fixed width, bit 0 the least significant (00_scope.md R8).
-/

namespace Sys2Proof

/-- A byte, 8 bits (R8). Header bytes and payload bytes are bytes. -/
abbrev Byte := BitVec 8

/-- A command word `cmd[15:0]`, 16 bits (30_encoding.md R60). -/
abbrev CommandWord := BitVec 16

/-- The value of the CRC register, 16 bits (10_state.md R21). -/
abbrev CrcValue := BitVec 16

/-- The datum of a response, `rsp[15:0]` (30_encoding.md R64). -/
abbrev Datum := BitVec 16

/-- The value of the byte counter, 9 bits (10_state.md R22). -/
abbrev Count := BitVec 9

/-- A header byte index `cmd[10:8]`, 3 bits: the address field of the header space (R40, R60). -/
abbrev HdrIndex := BitVec 3

end Sys2Proof
end

