-- ==== Sys2Proof/Config.lean ====
section
/-!
DEFINITION. The parameters of the block (00_scope.md R6, R7). None is a run-time option: the block
has no configuration register. The spec leaves no value of an executed command open, so there is
no free value here.
-/

namespace Sys2Proof.Config

/-- `CRC_POLY = 0x1021` (R6). -/
def crcPoly : CrcValue := 0x1021

/-- `CRC_INIT = 0xFFFF` (R6). -/
def crcInit : CrcValue := 0xFFFF

/-- `CRC_XOROUT = 0x0000` (R7; 92_eei_decisions.md D4). With `CRC_REFIN` and `CRC_REFOUT` false,
the result of `crc` is the register as it stands (40_checksum_engine.md R86). -/
def crcXorOut : CrcValue := 0x0000

/-- `CNT_SAT = 256`: the byte counter stops counting here (R7, R22). -/
def countSaturation : Nat := 256

/-- `MAX_PAYLOAD = 255` bytes: `payload_length` is a byte (R6). -/
def maxPayload : Nat := 255

/-- `HDR_SIZE = 5` bytes (R6). -/
def headerSize : Nat := 5

/-- What header address 0 holds in the empty header, `header_checksum = 1` (41_header_framing.md R119). -/
def emptyChecksum : Byte := 0x01

end Sys2Proof.Config
end

