-- ==== Sys2Proof/Syntax.lean ====
section
/-!
DEFINITION. The syntax of the block: the twelve commands (30_encoding.md R63), the named reasons a
word is no command (R66, R67, R69), the seven pseudo-instructions (R71), and the written form of a
line of the assembler (R70).
-/

namespace Sys2Proof

/-- The twelve commands of R63, one constructor per row of the opcode map. Every value of an operand
field is an operand (R62, R69), so an `Instr` cannot be ill-formed: an index of 5 to 7 is a
command whose execution answers `BADIDX`. -/
inductive Instr where
  /-- `NOP`, format N (42_system.md R140). -/
  | nop
  /-- `CRCINIT`, format N (40_checksum_engine.md R88). -/
  | crcinit
  /-- `CRCB imm8`, format D (R89). -/
  | crcb (imm8 : Byte)
  /-- `CRCRD`, format N (R90). -/
  | crcrd
  /-- `CNTRD`, format N (R91). -/
  | cntrd
  /-- `LRCRD`, format N (R92). -/
  | lrcrd
  /-- `HCLR`, format N (41_header_framing.md R113). -/
  | hclr
  /-- `HLD idx, imm8`, format XD (R114). -/
  | hld (idx : HdrIndex) (imm8 : Byte)
  /-- `HRD idx`, format X (R115). -/
  | hrd (idx : HdrIndex)
  /-- `HBUILD imm8`, format D (R116). -/
  | hbuild (imm8 : Byte)
  /-- `HVALID`, format N (R117). -/
  | hvalid
  /-- `PVALID`, format N (R118). -/
  | pvalid
deriving DecidableEq, Repr

/-- Why a word is no command (R69). The block answers all of them with the one response `ILLEGAL`
(60_exceptions.md R151); the names are for a reader. -/
inductive DecodeError where
  /-- `cmd[11]` is 1 (R67). -/
  | reservedBitSet
  /-- The opcode is 0x6, 0x7, 0xE or 0xF (R66). -/
  | reservedOpcode
  /-- A field the format leaves without an operand is not zero (R67). -/
  | fieldNotZero
deriving DecidableEq, Repr

/-- One row of the opcode map of R63: a word belongs to the row exactly when
`(word AND mask) == pattern`. -/
structure OpcodeRow where
  /-- The row's `match` column. -/
  pattern : CommandWord
  /-- The row's `mask` column. -/
  mask : CommandWord
deriving DecidableEq, Repr

/-- The seven pseudo-instructions of R71, with their operand lists. `CHKFRAME` takes at least five
bytes: the header and then the payload. -/
inductive Pseudo where
  /-- `CRC b0, ..., b(n-1)`. -/
  | crc (bytes : List Byte)
  /-- `LRC a, b, c, d`. -/
  | lrc (a b c d : Byte)
  /-- `HLOAD h0, h1, h2, h3, h4`. -/
  | hload (h0 h1 h2 h3 h4 : Byte)
  /-- `HREAD`. -/
  | hread
  /-- `MKHDR id, b0, ..., b(n-1)`. -/
  | mkhdr (id : Byte) (bytes : List Byte)
  /-- `CHKPKT b0, ..., b(n-1)`. -/
  | chkpkt (bytes : List Byte)
  /-- `CHKFRAME f0, ..., f(m-1)` with `m >= 5`. -/
  | chkframe (f0 f1 f2 f3 f4 : Byte) (payload : List Byte)
deriving DecidableEq, Repr

/-- The names that may begin a line: the twelve mnemonics of R63 and the seven of R71. -/
inductive Mnemonic where
  | NOP | CRCINIT | CRCB | CRCRD | CNTRD | LRCRD
  | HCLR | HLD | HRD | HBUILD | HVALID | PVALID
  | CRC | LRC | HLOAD | HREAD | MKHDR | CHKPKT | CHKFRAME
deriving DecidableEq, Repr

/-- An operand as it is written (R70): a number, or a quoted character. -/
inductive Operand where
  /-- A decimal or `0x` hexadecimal number. -/
  | number (n : Nat)
  /-- A quoted character, `'A'`. -/
  | quoted (c : Char)
deriving DecidableEq, Repr

/-- A line that is not blank (R70): a mnemonic and its operands. -/
structure Line where
  name : Mnemonic
  operands : List Operand
deriving DecidableEq, Repr

/-- A lexical token of a line (R70). -/
inductive Token where
  /-- A run of characters that is no separator: a mnemonic or a number. -/
  | word (chars : List Char)
  /-- A quoted character. -/
  | quoted (c : Char)
  /-- The comma between two operands. -/
  | comma
deriving DecidableEq, Repr

/-- Why the assembler refuses a line (R70, R72). -/
inductive AsmError where
  /-- A quote that is not of the form `'c'`. -/
  | badQuote
  /-- The line does not begin with one of the nineteen names. -/
  | unknownMnemonic
  /-- An operand that is neither a decimal nor a `0x` hexadecimal number nor a quoted character. -/
  | badOperand
  /-- Operands not separated by single commas. -/
  | badSeparator
  /-- The line is not well formed: a wrong number of operands, or one outside its range (R72). -/
  | illFormed
deriving DecidableEq, Repr

end Sys2Proof
end

