-- ==== Sys2Proof/Machine/State.lean ====
section
/-!
DEFINITION. The state of the machine as plain data: the seven elements the spec gives the block
(10_state.md R20), and the two ends of the command interface as the host sees them.
-/

namespace Sys2Proof.Machine

/-- A header value: five bytes in wire order, with the names of the source's data model
(10_state.md R24; 41_header_framing.md R110). The header register `HDR[0..4]` holds one; offset
`i` of the record is address `i` of the header space (20_memory.md R40, R41). -/
structure Header where
  /-- `HDR[0]`. -/
  headerChecksum : Byte
  /-- `HDR[1]`. -/
  packetId : Byte
  /-- `HDR[2]`. -/
  payloadLength : Byte
  /-- `HDR[3]`. -/
  payloadChecksumLsb : Byte
  /-- `HDR[4]`. -/
  payloadChecksumMsb : Byte
deriving DecidableEq, Repr

/-- The spec's whole state, 65 bits (R20). Nothing else is state: no program counter (R27), no
flags (R28), no hidden state (R29). -/
structure Block where
  /-- `CRC`, the running CRC-CCITT register (R21). -/
  crc : CrcValue
  /-- `CNT`, the bytes absorbed since the last `CRCINIT` or reset, saturating at 256 (R22). -/
  cnt : Count
  /-- `HDR[0]` to `HDR[4]`, the header register (R23). -/
  hdr : Header
deriving DecidableEq, Repr

/-- The status of a response (30_encoding.md R65). Four are produced; codes 4 to 15 never are. -/
inductive Status where
  /-- `OK`, code 0: the command was executed. -/
  | ok
  /-- `ILLEGAL`, code 1 (60_exceptions.md R151). -/
  | illegal
  /-- `BADIDX`, code 2 (R152). -/
  | badIdx
  /-- `LENOVF`, code 3 (R153). -/
  | lenOvf
deriving DecidableEq, Repr

/-- The block's exceptions: the causes of an error response (60_exceptions.md R150 to R153). -/
inductive ErrorCause where
  /-- The word matches no row of the opcode map; raised at decode (R151). -/
  | illegal
  /-- `HLD` or `HRD` with an index of 5 to 7; raised in execution (R152). -/
  | badIdx
  /-- `HBUILD` with `CNT == 256`; raised in execution (R153). -/
  | lenOvf
deriving DecidableEq, Repr

/-- The response to a command (30_encoding.md R64): a status and a datum. -/
structure Response where
  status : Status
  data : Datum
deriving DecidableEq, Repr

/-- What the host and the environment can do to the block (00_scope.md R13). -/
inductive HostEvent where
  /-- The host presents one command word (30_encoding.md R60). -/
  | command (w : CommandWord)
  /-- The environment fires reset between two commands (70_reset_and_hazards.md R180, R182). -/
  | reset
deriving DecidableEq, Repr

/-- The machine. `block` is the spec's state, all of it. `inputs` and `responses` are the MODEL's
own fields (DESIGN CHOICE, notes/assumptions/1.md and 2.md): the command list that R27 makes a
parameter of a run, and the run log of the responses; the block neither reads nor keeps them. -/
structure State where
  /-- The seven state elements of R20. -/
  block : Block
  /-- What is still to be presented to the block, the next event first. -/
  inputs : List HostEvent
  /-- The responses the host has received, the oldest first. -/
  responses : List Response
deriving DecidableEq, Repr

/-- Reasons the machine stops with a fault: none. No command of the block stalls, stops or leaves
it without an answer (70_reset_and_hazards.md R192): its errors are error responses, after which
the next command is executed (60_exceptions.md R150, R158). See notes/assumptions/10.md (safe:
the type allows no claim to hide behind a stop). -/
inductive Fault where
deriving DecidableEq, Repr

/-- Reasons for which the model gives an instruction no meaning. -/
inductive Refusal where
  /-- Raised by an arm of `exec` whose instruction has no meaning yet. Safe: the run stops. No arm
  raises it now. -/
  | notModelled (mnemonic : String)
deriving DecidableEq, Repr

/-- The header Construct-empty makes, `empty() = (1, 0, 0, 0, 0)` (41_header_framing.md R119):
"no header received yet". Invalid by construction. -/
def emptyHeader : Header := ⟨Config.emptyChecksum, 0, 0, 0, 0⟩

/-- The seven elements after reset (10_state.md R30): the CRC register at its initial value, no
byte absorbed, the empty header. -/
def Block.atReset : Block := ⟨Config.crcInit, 0, emptyHeader⟩

/-- The machine right after reset (R30, 70_reset_and_hazards.md R180), with nothing presented to it
and no response given yet. -/
def State.reset : State := ⟨Block.atReset, [], []⟩

end Sys2Proof.Machine
end

