-- ==== Sys2Proof/Machine/Operands.lean ====
section
/-!
DEFINITION. The operand forms of the block: an immediate byte used as it stands, a header index used
as an address of the header space (30_encoding.md R62; 20_memory.md R40, R41), and the zero
extensions to the datum of a response (R65).
-/

namespace Sys2Proof.Machine

/-- `zext_16` of a byte: the datum of a command that returns a byte (R65). -/
def byteDatum (b : Byte) : Datum := b.zeroExtend 16

/-- `zext_16` of a Boolean answer: `0x0001` for true, `0x0000` for false (R65). -/
def boolDatum (b : Bool) : Datum := if b then 0x0001 else 0x0000

/-- `zext_16(CNT)`: the datum of `CNTRD` (R65, R91). -/
def countDatum (n : Count) : Datum := n.zeroExtend 16

/-- lsb of a CRC value, `c[7:0]` (R8, R43). -/
def crcLsb (c : CrcValue) : Byte := c.extractLsb' 0 8

/-- msb of a CRC value, `c[15:8]` (R8, R43). -/
def crcMsb (c : CrcValue) : Byte := c.extractLsb' 8 8

/-- The 16-bit CRC a header declares, `HDR[4] ++ HDR[3]` (R43). -/
def declaredCrc (h : Header) : CrcValue := h.payloadChecksumMsb ++ h.payloadChecksumLsb

/-- `MemRead(i, 1)` of the header space: location `i` is `HDR[i]`; addresses 5, 6 and 7 name no
location (R40, R41). -/
def memRead (h : Header) (i : HdrIndex) : Option Byte :=
  match i.toNat with
  | 0 => some h.headerChecksum
  | 1 => some h.packetId
  | 2 => some h.payloadLength
  | 3 => some h.payloadChecksumLsb
  | 4 => some h.payloadChecksumMsb
  | _ => none

/-- `MemWrite(i, 1, v)` of the header space: the one byte `HDR[i]` becomes `v`; addresses 5, 6 and
7 name no location (R40, R41). -/
def memWrite (h : Header) (i : HdrIndex) (v : Byte) : Option Header :=
  match i.toNat with
  | 0 => some { h with headerChecksum := v }
  | 1 => some { h with packetId := v }
  | 2 => some { h with payloadLength := v }
  | 3 => some { h with payloadChecksumLsb := v }
  | 4 => some { h with payloadChecksumMsb := v }
  | _ => none

/-- The five bytes of a header in wire order (10_state.md R24, 20_memory.md R45). -/
def headerBytes (h : Header) : List Byte :=
  [h.headerChecksum, h.packetId, h.payloadLength, h.payloadChecksumLsb, h.payloadChecksumMsb]

end Sys2Proof.Machine
end

