-- ==== Sys2Proof/Machine/Flags.lean ====
section
/-!
DEFINITION. The Boolean conditions of the block and the header constructions they judge. The block
stores no flag (10_state.md R28): `header_valid` and `packet_valid` are computed when `HVALID` or
`PVALID` is executed (41_header_framing.md R111, R112).
-/

namespace Sys2Proof.Machine

/-- `header_valid(H)`, the source's isValid (R111): recompute the header checksum from the other
four fields and compare. -/
def headerValid (h : Header) : Bool :=
  h.headerChecksum == lrc h.packetId h.payloadLength h.payloadChecksumLsb h.payloadChecksumMsb

/-- `packet_valid(H, c, n)`, the source's isPacketValid with the payload given by its CRC and its
counted length (R112): a 9-bit and two 8-bit equalities. -/
def packetValid (h : Header) (c : CrcValue) (n : Count) : Bool :=
  n == h.payloadLength.zeroExtend 9
    && crcLsb c == h.payloadChecksumLsb
    && crcMsb c == h.payloadChecksumMsb

/-- `min(n, 256)` as the counter holds it (R22, R112). -/
def saturatedCount (n : Nat) : Count := BitVec.ofNat 9 (min n Config.countSaturation)

/-- `is_packet_valid(H, p)` of a payload of any length (R112). -/
def isPacketValid (h : Header) (payload : List Byte) : Bool :=
  packetValid h (crc payload) (saturatedCount payload.length)

/-- The header with a given id, length byte and CRC: the id, the length, the CRC low byte first,
and the LRC over these four (R116, R119). -/
def headerOf (id n : Byte) (c : CrcValue) : Header :=
  { headerChecksum := lrc id n (crcLsb c) (crcMsb c)
    packetId := id
    payloadLength := n
    payloadChecksumLsb := crcLsb c
    payloadChecksumMsb := crcMsb c }

/-- `build(id, p)`, the source's Construct-from-payload (R119). Undefined, `none`, for a payload of
more than 255 bytes (R119, notes/assumptions/8.md). -/
def build (id : Byte) (payload : List Byte) : Option Header :=
  if payload.length ≤ Config.maxPayload then
    some (headerOf id (BitVec.ofNat 8 payload.length) (crc payload))
  else none

/-- `frame_valid(f)`, the conjunction a caller forms of the two answers (R121), defined for a byte
sequence of at least five bytes. -/
def frameValid : List Byte → Option Bool
  | f0 :: f1 :: f2 :: f3 :: f4 :: payload =>
    some (headerValid ⟨f0, f1, f2, f3, f4⟩ && isPacketValid ⟨f0, f1, f2, f3, f4⟩ payload)
  | _ => none

end Sys2Proof.Machine
end

