-- ==== Sys2Proof/Machine/Ops.lean ====
section
/-!
DEFINITION. The shared operations of the commands: answering, taking an error (the block's only
exception), writing the engine registers and the header register, and reset.
-/

namespace Sys2Proof.Machine

/-- The status code of R65, 4 bits. -/
def statusCode : Status → BitVec 4
  | .ok => 0
  | .illegal => 1
  | .badIdx => 2
  | .lenOvf => 3

/-- The 20-bit response word: `status = rsp[19:16]`, `data = rsp[15:0]` (30_encoding.md R64). -/
def responseWord (r : Response) : BitVec 20 := statusCode r.status ++ r.data

/-- The status that reports an error (60_exceptions.md R151 to R153). -/
def errorStatus : ErrorCause → Status
  | .illegal => .illegal
  | .badIdx => .badIdx
  | .lenOvf => .lenOvf

/-- One more response reaches the host (R64). -/
def answer (s : State) (r : Response) : State := { s with responses := s.responses ++ [r] }

/-- `respond(OK, d)` (00_scope.md R11). -/
def respond (s : State) (d : Datum) : State := answer s ⟨.ok, d⟩

/-- Taking an error, `raise <Error>` (60_exceptions.md R150): no state element is written, nothing
is recorded, and the response has the error's status and datum `0x0000`. There is no return from
it: the next command is executed as if the failed one had been `NOP` (R150, R158). -/
def raise (s : State) (e : ErrorCause) : State := answer s ⟨errorStatus e, 0x0000⟩

/-- `CRC <- c` and `CNT <- n`. -/
def setEngine (s : State) (c : CrcValue) (n : Count) : State :=
  { s with block := { s.block with crc := c, cnt := n } }

/-- `HDR <- h`: all five header bytes in one step (20_memory.md R48). -/
def setHeader (s : State) (h : Header) : State :=
  { s with block := { s.block with hdr := h } }

/-- The saturating increment of `CNT`, `min(CNT + 1, 256)`, the sum exact (40_checksum_engine.md
R89, R94). -/
def countUp (n : Count) : Count := saturatedCount (n.toNat + 1)

/-- The reset event (70_reset_and_hazards.md R180): every state element takes its reset value at
once, whatever the state before; no response. What the host has still to present and has
received is outside the block and stays (notes/assumptions/4.md). -/
def resetBlock (s : State) : State := { s with block := Block.atReset }

end Sys2Proof.Machine
end

