-- ==== Sys2Proof/Machine/Engine.lean ====
section
/-!
DEFINITION. The meanings of the checksum engine's commands (40_checksum_engine.md R88 to R92).
-/

namespace Sys2Proof.Machine

/-- `CRCINIT` (R88): start a new CRC computation. -/
def execCrcinit (s : State) : Host.Outcome State Fault Refusal :=
  .next (respond (setEngine s Config.crcInit 0) 0x0000)

/-- `CRCB imm8` (R89): absorb one payload byte; the counter saturates, the CRC goes on. -/
def execCrcb (imm8 : Byte) (s : State) : Host.Outcome State Fault Refusal :=
  .next (respond (setEngine s (crcStep s.block.crc imm8) (countUp s.block.cnt)) 0x0000)

/-- `CRCRD` (R90): read the CRC register; the computation goes on. -/
def execCrcrd (s : State) : Host.Outcome State Fault Refusal := .next (respond s s.block.crc)

/-- `CNTRD` (R91): read the byte counter. -/
def execCntrd (s : State) : Host.Outcome State Fault Refusal :=
  .next (respond s (countDatum s.block.cnt))

/-- `LRCRD` (R92): the LRC over the header bytes at offsets 1 to 4; `HDR[0]` is neither read nor
written. -/
def execLrcrd (s : State) : Host.Outcome State Fault Refusal :=
  let h := s.block.hdr
  .next (respond s (byteDatum
    (lrc h.packetId h.payloadLength h.payloadChecksumLsb h.payloadChecksumMsb)))

end Sys2Proof.Machine
end

