-- ==== Sys2Proof/Machine/Framing.lean ====
section
/-!
DEFINITION. The meanings of the header framing's commands (41_header_framing.md R113 to R118).
-/

namespace Sys2Proof.Machine

/-- `HCLR` (R113): Construct-empty into the header register. -/
def execHclr (s : State) : Host.Outcome State Fault Refusal :=
  .next (respond (setHeader s emptyHeader) 0x0000)

/-- `HLD idx, imm8` (R114): load one header byte; an index of 5 to 7 raises `BADIDX` and writes
nothing (60_exceptions.md R152). -/
def execHld (idx : HdrIndex) (imm8 : Byte) (s : State) : Host.Outcome State Fault Refusal :=
  match memWrite s.block.hdr idx imm8 with
  | none => .next (raise s .badIdx)
  | some h => .next (respond (setHeader s h) 0x0000)

/-- `HRD idx` (R115): read one header byte; an index of 5 to 7 raises `BADIDX`. -/
def execHrd (idx : HdrIndex) (s : State) : Host.Outcome State Fault Refusal :=
  match memRead s.block.hdr idx with
  | none => .next (raise s .badIdx)
  | some b => .next (respond s (byteDatum b))

/-- `HBUILD imm8` (R116): Construct-from-payload into the header register, from the bytes absorbed;
`LENOVF` when `CNT == 256` (60_exceptions.md R153). `n` is `CNT[7:0]`. -/
def execHbuild (imm8 : Byte) (s : State) : Host.Outcome State Fault Refusal :=
  if s.block.cnt = 256 then .next (raise s .lenOvf)
  else
    .next (respond (setHeader s (headerOf imm8 (s.block.cnt.extractLsb' 0 8) s.block.crc)) 0x0000)

/-- `HVALID` (R117): isValid on the header register; an invalid header is an answer, not an error
(60_exceptions.md R154). -/
def execHvalid (s : State) : Host.Outcome State Fault Refusal :=
  .next (respond s (boolDatum (headerValid s.block.hdr)))

/-- `PVALID` (R118): isPacketValid on the header register, the payload being the bytes absorbed. -/
def execPvalid (s : State) : Host.Outcome State Fault Refusal :=
  .next (respond s (boolDatum (packetValid s.block.hdr s.block.crc s.block.cnt)))

end Sys2Proof.Machine
end

