-- ==== Sys2Proof/Machine/System.lean ====
section
/-!
DEFINITION. The meaning of `NOP` (42_system.md). The block has no control transfer and no system
command (R141, R142).
-/

namespace Sys2Proof.Machine

/-- `NOP` (R140). -/
def execNop (s : State) : Host.Outcome State Fault Refusal := .next (respond s 0x0000)

end Sys2Proof.Machine
end

