-- ==== Sys2Proof/Machine/Dispatch.lean ====
section
/-!
DEFINITION. One arm per command, each one direct call of its meaning.
-/

namespace Sys2Proof.Machine

/-- What a decoded command does (00_scope.md R15): one atomic change of state and one response. -/
def exec (i : Instr) (s : State) : Host.Outcome State Fault Refusal :=
  match i with
  | .nop => Sys2Proof.Machine.execNop s
  | .crcinit => Sys2Proof.Machine.execCrcinit s
  | .crcb imm8 => Sys2Proof.Machine.execCrcb imm8 s
  | .crcrd => Sys2Proof.Machine.execCrcrd s
  | .cntrd => Sys2Proof.Machine.execCntrd s
  | .lrcrd => Sys2Proof.Machine.execLrcrd s
  | .hclr => Sys2Proof.Machine.execHclr s
  | .hld idx imm8 => Sys2Proof.Machine.execHld idx imm8 s
  | .hrd idx => Sys2Proof.Machine.execHrd idx s
  | .hbuild imm8 => Sys2Proof.Machine.execHbuild imm8 s
  | .hvalid => Sys2Proof.Machine.execHvalid s
  | .pvalid => Sys2Proof.Machine.execPvalid s

end Sys2Proof.Machine
end

