-- ==== Sys2Proof/WellFormed.lean ====
section
/-!
DEFINITION. Well-formedness of a written line: each mnemonic takes the operands of its format
(30_encoding.md R61, R70, R71), a byte operand is 0 to 255 or an ASCII character, and an index is
0 to 7 (R72: "An assembler refuses an operand outside these ranges; it accepts i in 5..7").

A decoded command needs no such check: its operands have exactly the width of their fields
(R62), and R69 makes every value of a field an operand. The check on a raw command word is the
decoder itself (Sys2Proof/Decode.lean).
-/

namespace Sys2Proof

/-- A byte operand: 0 to 255 (R72), or a quoted ASCII character (R70). -/
def Operand.isByte : Operand → Bool
  | .number n => decide (n ≤ 255)
  | .quoted c => decide (c.toNat ≤ 127)

/-- An index operand: a number 0 to 7 (R72). R70 gives the quoted form to byte operands only. -/
def Operand.isIndex : Operand → Bool
  | .number n => decide (n ≤ 7)
  | .quoted _ => false

/-- The operands a line's mnemonic takes (R61 for the formats N, D, X and XD; R71 for the
pseudo-instructions). -/
def Line.wellFormed (l : Line) : Bool :=
  match l.name, l.operands with
  | .NOP, ops | .CRCINIT, ops | .CRCRD, ops | .CNTRD, ops | .LRCRD, ops | .HCLR, ops
  | .HVALID, ops | .PVALID, ops | .HREAD, ops => ops.isEmpty
  | .CRCB, [v] | .HBUILD, [v] => v.isByte
  | .HRD, [i] => i.isIndex
  | .HLD, [i, v] => i.isIndex && v.isByte
  | .CRC, ops | .CHKPKT, ops => ops.all Operand.isByte
  | .LRC, ops => ops.length == 4 && ops.all Operand.isByte
  | .HLOAD, ops => ops.length == 5 && ops.all Operand.isByte
  | .MKHDR, ops => decide (1 ≤ ops.length) && ops.all Operand.isByte
  | .CHKFRAME, ops => decide (5 ≤ ops.length) && ops.all Operand.isByte
  | .CRCB, _ | .HBUILD, _ | .HRD, _ | .HLD, _ => false

end Sys2Proof
end

