-- ==== Sys2Proof/Decode.lean ====
section
/-!
DEFINITION. The decoder and the encoder of the command word (30_encoding.md R60 to R63, R69, R72),
and the opcode map as a table of masks and patterns (R63).
-/

namespace Sys2Proof

/-- `op = cmd[15:12]` (R60). -/
def opField (w : CommandWord) : BitVec 4 := w.extractLsb' 12 4

/-- `rsv = cmd[11]` (R60). -/
def rsvField (w : CommandWord) : BitVec 1 := w.extractLsb' 11 1

/-- `idx = cmd[10:8]` (R60). -/
def idxField (w : CommandWord) : HdrIndex := w.extractLsb' 8 3

/-- `imm8 = cmd[7:0]` (R60). -/
def imm8Field (w : CommandWord) : Byte := w.extractLsb' 0 8

/-- Format N: `cmd[10:0]` must be zero (R61, R69). -/
def decodeN (w : CommandWord) (i : Instr) : Except DecodeError Instr :=
  if idxField w = 0 ∧ imm8Field w = 0 then .ok i else .error .fieldNotZero

/-- Format D: `cmd[10:8]` must be zero (R61, R69). -/
def decodeD (w : CommandWord) (f : Byte → Instr) : Except DecodeError Instr :=
  if idxField w = 0 then .ok (f (imm8Field w)) else .error .fieldNotZero

/-- Format X: `cmd[7:0]` must be zero (R61, R69). -/
def decodeX (w : CommandWord) (f : HdrIndex → Instr) : Except DecodeError Instr :=
  if imm8Field w = 0 then .ok (f (idxField w)) else .error .fieldNotZero

/-- Format XD: both fields carry an operand (R61, R69). -/
def decodeXD (w : CommandWord) (f : HdrIndex → Byte → Instr) : Except DecodeError Instr :=
  .ok (f (idxField w) (imm8Field w))

/-- The decoder, total on 16-bit words, in the order of R69: the reserved bit, the opcode, the
must-be-zero fields of the opcode's format. -/
def decode (w : CommandWord) : Except DecodeError Instr :=
  if rsvField w ≠ 0 then .error .reservedBitSet
  else
    match (opField w).toNat with
    | 0x0 => decodeN w .nop
    | 0x1 => decodeN w .crcinit
    | 0x2 => decodeD w .crcb
    | 0x3 => decodeN w .crcrd
    | 0x4 => decodeN w .cntrd
    | 0x5 => decodeN w .lrcrd
    | 0x8 => decodeN w .hclr
    | 0x9 => decodeXD w .hld
    | 0xA => decodeX w .hrd
    | 0xB => decodeD w .hbuild
    | 0xC => decodeN w .hvalid
    | 0xD => decodeN w .pvalid
    | _   => .error .reservedOpcode   -- 0x6, 0x7, 0xE, 0xF (R66)

/-- The four fields of R60 side by side, the reserved bit zero. -/
def assembleWord (op : BitVec 4) (idx : HdrIndex) (imm8 : Byte) : CommandWord :=
  op ++ 0#1 ++ idx ++ imm8

/-- The word of a command (R72): its opcode of R63, and zero in every field without an operand
(R61). -/
def encode : Instr → CommandWord
  | .nop        => assembleWord 0x0 0 0
  | .crcinit    => assembleWord 0x1 0 0
  | .crcb v     => assembleWord 0x2 0 v
  | .crcrd      => assembleWord 0x3 0 0
  | .cntrd      => assembleWord 0x4 0 0
  | .lrcrd      => assembleWord 0x5 0 0
  | .hclr       => assembleWord 0x8 0 0
  | .hld i v    => assembleWord 0x9 i v
  | .hrd i      => assembleWord 0xA i 0
  | .hbuild v   => assembleWord 0xB 0 v
  | .hvalid     => assembleWord 0xC 0 0
  | .pvalid     => assembleWord 0xD 0 0

/-- The `match` and `mask` columns of R63, the row of each command. -/
def opcodeRow : Instr → OpcodeRow
  | .nop        => ⟨0x0000, 0xFFFF⟩
  | .crcinit    => ⟨0x1000, 0xFFFF⟩
  | .crcb _     => ⟨0x2000, 0xFF00⟩
  | .crcrd      => ⟨0x3000, 0xFFFF⟩
  | .cntrd      => ⟨0x4000, 0xFFFF⟩
  | .lrcrd      => ⟨0x5000, 0xFFFF⟩
  | .hclr       => ⟨0x8000, 0xFFFF⟩
  | .hld _ _    => ⟨0x9000, 0xF800⟩
  | .hrd _      => ⟨0xA000, 0xF8FF⟩
  | .hbuild _   => ⟨0xB000, 0xFF00⟩
  | .hvalid     => ⟨0xC000, 0xFFFF⟩
  | .pvalid     => ⟨0xD000, 0xFFFF⟩

/-- A word belongs to a row exactly when `(w AND mask) == match` (R63). -/
def OpcodeRow.matches (r : OpcodeRow) (w : CommandWord) : Bool := w &&& r.mask == r.pattern

/-- The twelve rows of the opcode map, in the order of R63. -/
def opcodeMap : List OpcodeRow :=
  [opcodeRow .nop, opcodeRow .crcinit, opcodeRow (.crcb 0), opcodeRow .crcrd,
   opcodeRow .cntrd, opcodeRow .lrcrd, opcodeRow .hclr, opcodeRow (.hld 0 0),
   opcodeRow (.hrd 0), opcodeRow (.hbuild 0), opcodeRow .hvalid, opcodeRow .pvalid]

/-- The instruction the decoder reads from an instruction whose bits are `w`, numbered as
spec/opcode_table.json numbers them: every row is one 16-bit word, taken as it stands (R60). Bits
of `w` above `nbits` count as zero, and a number that does not fit the one command word is none. -/
def decodeTableWord (nbits w : Nat) : Option Instr :=
  if w % 2 ^ nbits < 65536 then (decode (BitVec.ofNat 16 (w % 2 ^ nbits))).toOption else none

end Sys2Proof
end

