-- ==== Sys2Proof/Machine/Fetch.lean ====
section
/-!
DEFINITION. How the block takes its next command. It fetches nothing (10_state.md R27, 20_memory.md
R51): the host presents one word, and the order of execution is the order of presentation (R49).
-/

namespace Sys2Proof.Machine

/-- What is presented to the block next, and what remains. With nothing presented, `none`. -/
def nextInput (s : State) : Option (HostEvent × State) :=
  match s.inputs with
  | [] => none
  | e :: rest => some (e, { s with inputs := rest })

/-- What the block makes of a presented word: a command, or the error `ILLEGAL` (30_encoding.md
R69; 60_exceptions.md R151). -/
def presentedCommand (w : CommandWord) : Except ErrorCause Instr :=
  match decode w with
  | .ok i => .ok i
  | .error _ => .error .illegal

/-- The host presents a list of command words, after whatever it has presented before (R49, R188). -/
def present (s : State) (words : List CommandWord) : State :=
  { s with inputs := s.inputs ++ words.map .command }

/-- The command word of an instruction whose bits are `w` in `nbits` bits, as the opcode table
numbers them; the bits above `nbits` are zero. -/
def tableWord (nbits w : Nat) : CommandWord := BitVec.ofNat 16 (w % 2 ^ nbits)

/-- The host presents one command word before everything it has still to present. -/
def presentFirst (s : State) (w : CommandWord) : State :=
  { s with inputs := .command w :: s.inputs }

end Sys2Proof.Machine
end

