-- ==== Sys2Proof/Machine/Step.lean ====
section
/-!
DEFINITION. One step of the machine: the block takes what is presented to it next.
-/

namespace Sys2Proof.Machine

/-- One step (00_scope.md R13, R15). A command word is decoded and executed, or answered `ILLEGAL`;
a reset event resets the block (70_reset_and_hazards.md R180); with nothing presented the block
waits, unchanged (60_exceptions.md R161, notes/assumptions/3.md). -/
def step (s : State) : Host.Outcome State Fault Refusal :=
  match nextInput s with
  | none => .next s
  | some (.reset, t) => .next (resetBlock t)
  | some (.command w, t) =>
    match presentedCommand w with
    | .error e => .next (raise t e)
    | .ok i => exec i t

/-- `s` with the instruction of bits `w` presented to the block next. The block does not fetch: the
host presents its commands (R27), so this stands for the host's presenting that word
(notes/assumptions/1.md, 16.md). -/
def State.withFetchWord (s : State) (nbits w : Nat) : State := presentFirst s (tableWord nbits w)

end Sys2Proof.Machine
end

