-- ==== Sys2Proof/Machine/Assembler.lean ====
section
/-!
DEFINITION. The assembler: pseudo-instructions as fixed lists of commands (30_encoding.md R71), the
line syntax (R70) and the words of a line (R72). It belongs to the host; the block sees only the
words. What R70 leaves open is in notes/assumptions/9.md.
-/

namespace Sys2Proof.Machine

/-- `CRCINIT` and one `CRCB` for each byte, the common beginning of `CRC`, `MKHDR` and `CHKPKT`. -/
def absorbAll (bytes : List Byte) : List Instr := .crcinit :: bytes.map .crcb

/-- The expansion column of R71. -/
def expand : Pseudo → List Instr
  | .crc bs => absorbAll bs ++ [.crcrd]
  | .lrc a b c d => [.hld 1 a, .hld 2 b, .hld 3 c, .hld 4 d, .lrcrd]
  | .hload h0 h1 h2 h3 h4 => [.hld 0 h0, .hld 1 h1, .hld 2 h2, .hld 3 h3, .hld 4 h4]
  | .hread => [.hrd 0, .hrd 1, .hrd 2, .hrd 3, .hrd 4]
  | .mkhdr id bs => absorbAll bs ++ [.hbuild id]
  | .chkpkt bs => absorbAll bs ++ [.pvalid]
  | .chkframe f0 f1 f2 f3 f4 p =>
    [.hld 0 f0, .hld 1 f1, .hld 2 f2, .hld 3 f3, .hld 4 f4, .hvalid] ++ absorbAll p ++ [.pvalid]

/-- The value of a written operand: the number, or the character's ASCII code (R70). -/
def operandValue : Operand → Nat
  | .number n => n
  | .quoted c => c.toNat

/-- A byte operand of a well-formed line. -/
def operandByte (o : Operand) : Byte := BitVec.ofNat 8 (operandValue o)

/-- An index operand of a well-formed line. -/
def operandIndex (o : Operand) : HdrIndex := BitVec.ofNat 3 (operandValue o)

/-- The commands of a well-formed line: its one command (R70), or the expansion of its
pseudo-instruction (R71). A line that takes other operands has none; `assembleLine` refuses it. -/
def lineInstrs (l : Line) : List Instr :=
  match l.name, l.operands with
  | .NOP, [] => [.nop]
  | .CRCINIT, [] => [.crcinit]
  | .CRCB, [v] => [.crcb (operandByte v)]
  | .CRCRD, [] => [.crcrd]
  | .CNTRD, [] => [.cntrd]
  | .LRCRD, [] => [.lrcrd]
  | .HCLR, [] => [.hclr]
  | .HLD, [i, v] => [.hld (operandIndex i) (operandByte v)]
  | .HRD, [i] => [.hrd (operandIndex i)]
  | .HBUILD, [v] => [.hbuild (operandByte v)]
  | .HVALID, [] => [.hvalid]
  | .PVALID, [] => [.pvalid]
  | .CRC, bs => expand (.crc (bs.map operandByte))
  | .LRC, [a, b, c, d] =>
    expand (.lrc (operandByte a) (operandByte b) (operandByte c) (operandByte d))
  | .HLOAD, [a, b, c, d, e] =>
    expand (.hload (operandByte a) (operandByte b) (operandByte c) (operandByte d)
      (operandByte e))
  | .HREAD, [] => expand .hread
  | .MKHDR, id :: bs => expand (.mkhdr (operandByte id) (bs.map operandByte))
  | .CHKPKT, bs => expand (.chkpkt (bs.map operandByte))
  | .CHKFRAME, a :: b :: c :: d :: e :: p =>
    expand (.chkframe (operandByte a) (operandByte b) (operandByte c) (operandByte d)
      (operandByte e) (p.map operandByte))
  | _, _ => []

/-- The written names (R63, R71), in capitals (R70). -/
def mnemonicNames : List (List Char × Mnemonic) :=
  [("NOP".toList, .NOP), ("CRCINIT".toList, .CRCINIT), ("CRCB".toList, .CRCB),
   ("CRCRD".toList, .CRCRD), ("CNTRD".toList, .CNTRD), ("LRCRD".toList, .LRCRD),
   ("HCLR".toList, .HCLR), ("HLD".toList, .HLD), ("HRD".toList, .HRD),
   ("HBUILD".toList, .HBUILD), ("HVALID".toList, .HVALID), ("PVALID".toList, .PVALID),
   ("CRC".toList, .CRC), ("LRC".toList, .LRC), ("HLOAD".toList, .HLOAD),
   ("HREAD".toList, .HREAD), ("MKHDR".toList, .MKHDR), ("CHKPKT".toList, .CHKPKT),
   ("CHKFRAME".toList, .CHKFRAME)]

/-- The word read so far, its last character first, as a token before `ts`. -/
def flushWord (acc : List Char) (ts : List Token) : List Token :=
  if acc.isEmpty then ts else .word acc.reverse :: ts

/-- The tokens of a line (R70): `;` starts a comment to the end of the line, a comma separates, white
space ends a word, `'c'` is a quoted character. `acc` is the word being read. That a quote ends a
word too, so that no white space need stand before a quoted operand (`CRCB'A'` assembles), is the
model's choice, R70 being silent (notes/assumptions/9.md). -/
def lexLine : List Char → List Char → Except AsmError (List Token)
  | acc, [] => .ok (flushWord acc [])
  | acc, c :: rest =>
    if c = ';' then .ok (flushWord acc [])
    else if c = ',' then (lexLine [] rest).map fun ts => flushWord acc (.comma :: ts)
    else if c = ' ' ∨ c = '\t' ∨ c = '\r' then (lexLine [] rest).map (flushWord acc)
    else if c = '\'' then
      match rest with
      | d :: e :: rest' =>
        if e = '\'' then (lexLine [] rest').map fun ts => flushWord acc (.quoted d :: ts)
        else .error .badQuote
      | _ => .error .badQuote
    else lexLine (c :: acc) rest

/-- The value of a digit in a base up to sixteen, letters in either case. -/
def digitValue (base : Nat) (c : Char) : Option Nat :=
  let v :=
    if '0' ≤ c ∧ c ≤ '9' then c.toNat - 48
    else if 'a' ≤ c ∧ c ≤ 'f' then c.toNat - 87
    else if 'A' ≤ c ∧ c ≤ 'F' then c.toNat - 55
    else base
  if v < base then some v else none

/-- The value of a run of digits, most significant first. -/
def digitsValue (base : Nat) : Nat → List Char → Option Nat
  | n, [] => some n
  | n, c :: cs =>
    match digitValue base c with
    | some d => digitsValue base (base * n + d) cs
    | none => none

/-- A number is decimal or `0x` hexadecimal (R70). -/
def numberValue : List Char → Option Nat
  | [] => none
  | '0' :: 'x' :: cs => if cs.isEmpty then none else digitsValue 16 0 cs
  | cs => digitsValue 10 0 cs

/-- One operand (R70). -/
def parseOperand : Token → Except AsmError Operand
  | .quoted c => .ok (.quoted c)
  | .comma => .error .badSeparator
  | .word cs =>
    match numberValue cs with
    | some n => .ok (.number n)
    | none => .error .badOperand

/-- The operands after the first, each after a comma (R70). -/
def parseMoreOperands : List Token → Except AsmError (List Operand)
  | [] => .ok []
  | .comma :: t :: rest =>
    match parseOperand t, parseMoreOperands rest with
    | .ok o, .ok os => .ok (o :: os)
    | .error e, _ => .error e
    | .ok _, .error e => .error e
  | _ => .error .badSeparator

/-- The operands of a line, separated by commas (R70). -/
def parseOperands : List Token → Except AsmError (List Operand)
  | [] => .ok []
  | t :: rest =>
    match parseOperand t, parseMoreOperands rest with
    | .ok o, .ok os => .ok (o :: os)
    | .error e, _ => .error e
    | .ok _, .error e => .error e

/-- A line from its tokens: none for a blank line, else a mnemonic in capitals and its operands
(R70). -/
def parseLine : List Token → Except AsmError (Option Line)
  | [] => .ok none
  | .word cs :: rest =>
    match mnemonicNames.lookup cs, parseOperands rest with
    | none, _ => .error .unknownMnemonic
    | some _, .error e => .error e
    | some m, .ok os => .ok (some ⟨m, os⟩)
  | _ => .error .unknownMnemonic

/-- The commands of one line of text: blank lines are ignored, and an ill-formed line is refused
(R70, R72). -/
def assembleLine (text : List Char) : Except AsmError (List Instr) :=
  match lexLine [] text with
  | .error e => .error e
  | .ok ts =>
    match parseLine ts with
    | .error e => .error e
    | .ok none => .ok []
    | .ok (some l) => if l.wellFormed then .ok (lineInstrs l) else .error .illFormed

/-- The lines of a text. -/
def splitLines : List Char → List (List Char)
  | [] => [[]]
  | c :: cs =>
    if c = '\n' then [] :: splitLines cs
    else
      match splitLines cs with
      | [] => [[c]]
      | l :: ls => (c :: l) :: ls

/-- The commands of a list of lines, in order; the first refused line refuses the text. -/
def assembleLines : List (List Char) → Except AsmError (List Instr)
  | [] => .ok []
  | l :: ls =>
    match assembleLine l, assembleLines ls with
    | .ok is, .ok js => .ok (is ++ js)
    | .error e, _ => .error e
    | .ok _, .error e => .error e

/-- The command words of a text (R70 to R72). -/
def assemble (text : List Char) : Except AsmError (List CommandWord) :=
  match assembleLines (splitLines text) with
  | .ok is => .ok (is.map encode)
  | .error e => .error e

end Sys2Proof.Machine
end

