-- ==== Sys2Proof/Safety.lean ====
section
/-!
DEFINITION. What a run keeps and what counts as a safe run, in the terms the statements use.
-/

namespace Sys2Proof.Machine

/-- The counter is in the range it can reach, `0 <= CNT <= 256` (10_state.md R32). -/
abbrev CountInRange (b : Block) : Prop := b.cnt.toNat ≤ Config.countSaturation

/-- The engine registers are those of the payload `p`: `CRC == crc(p)` and
`CNT == min(len(p), 256)` (R32). -/
abbrev EngineHolds (p : List Byte) (b : Block) : Prop :=
  b.crc = crc p ∧ b.cnt = saturatedCount p.length

/-- The second reachable-state invariant of R32: the engine registers are those of some payload. -/
def EngineTracks (b : Block) : Prop := ∃ p : List Byte, EngineHolds p b

/-- The payload absorbed by a host event, starting from the payload absorbed before it: `CRCB`
appends its byte; `CRCINIT` and reset start again; nothing else changes it (R22, R32, R93). -/
def absorbedBy (p : List Byte) : HostEvent → List Byte
  | .reset => []
  | .command w =>
    match decode w with
    | .ok (.crcb b) => p ++ [b]
    | .ok .crcinit => []
    | _ => p

/-- A host event that starts the engine again: reset, or the word of `CRCINIT`. -/
def restartsEngine : HostEvent → Bool
  | .reset => true
  | .command w => decide ((decode w).toOption = some .crcinit)

/-- The bytes of the `CRCB` commands among host events, in order (40_checksum_engine.md R93). -/
def crcbBytes : List HostEvent → List Byte
  | [] => []
  | .reset :: es => crcbBytes es
  | .command w :: es =>
    match decode w with
    | .ok (.crcb b) => b :: crcbBytes es
    | _ => crcbBytes es

/-- The block after one command word, as `step` takes it (20_memory.md R49: "the command step
function"). -/
def afterCommand (b : Block) (w : CommandWord) : Block :=
  match step ⟨b, [.command w], []⟩ with
  | .next t => t.block
  | _ => b

/-- What the block answers to one command word. -/
def answersTo (b : Block) (w : CommandWord) : List Response :=
  match step ⟨b, [.command w], []⟩ with
  | .next t => t.responses
  | _ => []

/-- The fold of the command step function over a list of command words (R49). -/
def afterCommands (b : Block) (ws : List CommandWord) : Block := ws.foldl afterCommand b

/-- The answers to a list of command words, in order. -/
def answersToAll : Block → List CommandWord → List Response
  | _, [] => []
  | b, w :: ws => answersTo b w ++ answersToAll (afterCommand b w) ws

/-- How many of a list of host events are commands. -/
def commandCount : List HostEvent → Nat
  | [] => 0
  | .reset :: es => commandCount es
  | .command _ :: es => commandCount es + 1

/-- A safe run: the block answers everything presented to it. `k` steps end in a next state, never
in a fault or a refusal (70_reset_and_hazards.md R192). -/
def RunsTo (k : Nat) (s t : State) : Prop := Host.Core.run Sys2Proof.core k s = .next t

/-- The written name of each mnemonic (30_encoding.md R63, R71), in capitals (R70). -/
def mnemonicText : Mnemonic → List Char
  | .NOP => "NOP".toList
  | .CRCINIT => "CRCINIT".toList
  | .CRCB => "CRCB".toList
  | .CRCRD => "CRCRD".toList
  | .CNTRD => "CNTRD".toList
  | .LRCRD => "LRCRD".toList
  | .HCLR => "HCLR".toList
  | .HLD => "HLD".toList
  | .HRD => "HRD".toList
  | .HBUILD => "HBUILD".toList
  | .HVALID => "HVALID".toList
  | .PVALID => "PVALID".toList
  | .CRC => "CRC".toList
  | .LRC => "LRC".toList
  | .HLOAD => "HLOAD".toList
  | .HREAD => "HREAD".toList
  | .MKHDR => "MKHDR".toList
  | .CHKPKT => "CHKPKT".toList
  | .CHKFRAME => "CHKFRAME".toList

/-- `c` is a digit of value `d`, a letter in either case (notes/assumptions/9.md). -/
def IsDigit (d : Nat) (c : Char) : Prop :=
  "0123456789abcdef".toList[d]? = some c ∨ "0123456789ABCDEF".toList[d]? = some c

/-- `t` is a numeral of value `n`: one digit or more, the most significant first, zeros before it
allowed (notes/assumptions/9.md). -/
def Numeral (base n : Nat) (t : List Char) : Prop :=
  ∃ ds : List Nat, List.Forall₂ IsDigit ds t ∧ ds ≠ [] ∧ (∀ d ∈ ds, d < base) ∧
    n = ds.foldl (fun m d => base * m + d) 0

/-- A byte operand: a number 0 to 255 (R72) or a character of ASCII (R70), which is 0 to 127
(notes/assumptions/9.md). -/
def IsByteOperand (o : Operand) : Prop :=
  (∃ v ≤ 255, o = .number v) ∨ ∃ c : Char, c.toNat ≤ 127 ∧ o = .quoted c

/-- An index operand: a number 0 to 7 (R72), never quoted (notes/assumptions/9.md). -/
def IsIndexOperand (o : Operand) : Prop := ∃ i ≤ 7, o = .number i

/-- Every operand is a byte operand. -/
def AllBytes (os : List Operand) : Prop := ∀ o ∈ os, IsByteOperand o

/-- The words of `CRCINIT` and of one `CRCB` for each byte operand (R71, R72). -/
def absorbWords (os : List Operand) : List Nat := 0x1000 :: os.map (0x2000 + operandValue ·)

/-- The words of the five `HLD` that load a header (R71, R72). -/
def loadWords (a b c d e : Operand) : List Nat :=
  [0x9000 + operandValue a, 0x9100 + operandValue b, 0x9200 + operandValue c,
    0x9300 + operandValue d, 0x9400 + operandValue e]

/-- How an operand may be written (R70): a number as a decimal numeral or as `0x` and a hexadecimal
one, a character between two quotes. -/
def WrittenAs : Operand → List Char → Prop
  | .number n, t => Numeral 10 n t ∨ ∃ h, t = '0' :: 'x' :: h ∧ Numeral 16 n h
  | .quoted c, t => t = ['\'', c, '\'']

/-- A line as R70 shows it: the mnemonic, a space, the operands with a comma and a space between
them. -/
def lineText (m : Mnemonic) (operands : List (List Char)) : List Char :=
  mnemonicText m ++ ' ' :: List.intercalate [',', ' '] operands

/-- However its operands are written, the line assembles to the command words `ws`. -/
def AssemblesTo (m : Mnemonic) (operands : List Operand) (ws : List Nat) : Prop :=
  ∀ ts : List (List Char), List.Forall₂ WrittenAs operands ts →
    ∃ is : List Instr, assembleLine (lineText m ts) = .ok is ∧
      is.map (fun i => (encode i).toNat) = ws

/-- However its operands are written, the assembler refuses the line. -/
def IsRefused (m : Mnemonic) (operands : List Operand) : Prop :=
  ∀ ts : List (List Char), List.Forall₂ WrittenAs operands ts →
    assembleLine (lineText m ts) = .error .illFormed

end Sys2Proof.Machine
end

