-- ==== Sys2Proof/Certificates/Slice0/Obligations.lean ====
section
/-!
DEFINITION. The statements about the model, one `def Obligations.<Name> : Prop` each. The docstring
names the rule of spec/ a statement comes from. In every statement `s` is any state whatever,
reachable or not, unless a hypothesis says more.
-/

open Sys2Proof Sys2Proof.Machine

/-! ### Encoding -/

/-- Words written out from the encodings of R61, R63 and R72 decode to their commands, one word for
each row of the opcode map; an index of 5 decodes (R69); seven illegal words do not. -/
def Obligations.WordsOfTheOpcodeMapDecode : Prop :=
  decode 0b0000000000000000 = .ok .nop ∧ decode 0b0001000000000000 = .ok .crcinit ∧
  decode 0b0010000000110000 = .ok (.crcb 0x30) ∧ decode 0b0011000000000000 = .ok .crcrd ∧
  decode 0b0100000000000000 = .ok .cntrd ∧ decode 0b0101000000000000 = .ok .lrcrd ∧
  decode 0b1000000000000000 = .ok .hclr ∧ decode 0b1001001001100100 = .ok (.hld 2 0x64) ∧
  decode 0b1010010000000000 = .ok (.hrd 4) ∧ decode 0b1011000011111111 = .ok (.hbuild 0xFF) ∧
  decode 0b1100000000000000 = .ok .hvalid ∧ decode 0b1101000000000000 = .ok .pvalid ∧
  decode 0x95AA = .ok (.hld 5 0xAA) ∧
  ∀ w ∈ [0x6000, 0xFFFF, 0x0001, 0x1800, 0x2134, 0xA005, 0x9D00], ∃ e, decode w = .error e

/-- Decode and encode agree on every command, every operand at every value of its field. -/
def Obligations.DecodeOfEncode : Prop := ∀ i : Instr, decode (encode i) = .ok i

/-- Each legal word is the word of one command only: encoding what was decoded gives it back. -/
def Obligations.EncodeOfDecode : Prop := ∀ w i, decode w = .ok i → encode i = w

/-- R63: a word is the command of a row exactly when `(w AND mask) == match`; the rows are disjoint;
2576 of the 65536 words match a row. -/
def Obligations.DecoderFollowsTheOpcodeMap : Prop :=
  (∀ w i, decode w = .ok i → opcodeRow i ∈ opcodeMap ∧ w &&& (opcodeRow i).mask = (opcodeRow i).pattern) ∧
  (∀ w, ∀ r ∈ opcodeMap, w &&& r.mask = r.pattern → ∃ i, decode w = .ok i ∧ opcodeRow i = r) ∧
  (∀ w, ∀ r ∈ opcodeMap, ∀ r' ∈ opcodeMap,
    w &&& r.mask = r.pattern → w &&& r'.mask = r'.pattern → r = r') ∧
  opcodeMap.length = 12 ∧
  ∃ legal : List CommandWord, legal.Nodup ∧ legal.length = 2576 ∧
    ∀ w, w ∈ legal ↔ ∃ i, decode w = .ok i

/-- R66: a word with a reserved opcode is answered `(ILLEGAL, 0x0000)` whatever its other bits, and
changes no state. -/
def Obligations.ReservedOpcodesAreIllegal : Prop :=
  ∀ (s : State) (w : CommandWord) (rest : List HostEvent), s.inputs = .command w :: rest →
    w.extractLsb 15 12 ∈ [0x6#4, 0x7#4, 0xE#4, 0xF#4] →
    step s = .next { s with inputs := rest, responses := s.responses ++ [⟨.illegal, 0x0000⟩] }

/-- R67: a word with a defined opcode and a nonzero must-be-zero field (`rsv` in every command,
`idx` in formats N and D, `imm8` in formats N and X) is answered `(ILLEGAL, 0x0000)` and changes
no state. -/
def Obligations.NonzeroReservedFieldsAreIllegal : Prop :=
  let formatN := [0x0#4, 0x1#4, 0x3#4, 0x4#4, 0x5#4, 0x8#4, 0xC#4, 0xD#4]
  let formatD := [0x2#4, 0xB#4]
  let formatX := [0xA#4]
  ∀ (s : State) (w : CommandWord) (rest : List HostEvent), s.inputs = .command w :: rest →
    (w.extractLsb 11 11 ≠ 0#1 ∨
      (w.extractLsb 15 12 ∈ formatN ++ formatD ∧ w.extractLsb 10 8 ≠ 0#3) ∨
      (w.extractLsb 15 12 ∈ formatN ++ formatX ∧ w.extractLsb 7 0 ≠ 0#8)) →
    step s = .next { s with inputs := rest, responses := s.responses ++ [⟨.illegal, 0x0000⟩] }

/-- R68: the zero word is the only word that does, in every state, what `NOP` does; the all-ones word
is illegal. -/
def Obligations.OnlyTheZeroWordIsNop : Prop :=
  (∀ w : CommandWord,
    (∀ (b : Block) (rest : List HostEvent) (rs : List Response),
      step ⟨b, .command w :: rest, rs⟩ = .next ⟨b, rest, rs ++ [⟨.ok, 0x0000⟩]⟩) ↔ w = 0x0000) ∧
  (∀ w, decode w = .ok .nop ↔ w = 0x0000) ∧
  ∀ (b : Block) (rest : List HostEvent) (rs : List Response),
    step ⟨b, .command 0xFFFF :: rest, rs⟩ = .next ⟨b, rest, rs ++ [⟨.illegal, 0x0000⟩]⟩

/-- R72: the word of each command as a number. -/
def Obligations.WordsAsNumbers : Prop :=
  (encode .nop).toNat = 0x0000 ∧ (encode .crcinit).toNat = 0x1000 ∧
  (∀ v : Byte, (encode (.crcb v)).toNat = 0x2000 + v.toNat) ∧
  (encode .crcrd).toNat = 0x3000 ∧ (encode .cntrd).toNat = 0x4000 ∧
  (encode .lrcrd).toNat = 0x5000 ∧ (encode .hclr).toNat = 0x8000 ∧
  (∀ (i : HdrIndex) (v : Byte), (encode (.hld i v)).toNat = 0x9000 + 256 * i.toNat + v.toNat) ∧
  (∀ i : HdrIndex, (encode (.hrd i)).toNat = 0xA000 + 256 * i.toNat) ∧
  (∀ v : Byte, (encode (.hbuild v)).toNat = 0xB000 + v.toNat) ∧
  (encode .hvalid).toNat = 0xC000 ∧ (encode .pvalid).toNat = 0xD000

/-! ### Responses, errors and the step -/

/-- R64: every command word, legal or not, produces exactly one response; the new block and the
response are a function of the block before and the word; a response is the 20-bit word with
`status` in bits 19..16 and `data` in bits 15..0. The status codes of R65's table are 0 for `OK`, 1
for `ILLEGAL`, 2 for `BADIDX` and 3 for `LENOVF`; 4 to 15 are never produced. -/
def Obligations.OneResponseForEveryWord : Prop :=
  (∃ f : Block → CommandWord → Block × Response,
    ∀ (s : State) (w : CommandWord) (rest : List HostEvent), s.inputs = .command w :: rest →
      step s = .next ⟨(f s.block w).1, rest, s.responses ++ [(f s.block w).2]⟩) ∧
  (∀ r : Response, (responseWord r).extractLsb 19 16 = statusCode r.status ∧
    (responseWord r).extractLsb 15 0 = r.data) ∧
  statusCode .ok = 0 ∧ statusCode .illegal = 1 ∧ statusCode .badIdx = 2 ∧ statusCode .lenOvf = 3 ∧
  ∀ r : Response, ((responseWord r).extractLsb 19 16).toNat < 4

/-- R150: when a command ends in an error response no state element is written and the datum is
zero, and the next command finds the block as if the failed one had been `NOP`. -/
def Obligations.ErrorResponsesChangeNoState : Prop :=
  ∀ (s t : State) (w : CommandWord) (rest : List HostEvent) (r : Response),
    s.inputs = .command w :: rest → step s = .next t → t.responses = s.responses ++ [r] →
    r.status ≠ .ok →
    r.data = 0x0000 ∧ t.block = s.block ∧
    step { s with inputs := .command (encode .nop) :: rest } =
      .next { t with responses := s.responses ++ [⟨.ok, 0x0000⟩] }

/-- R151 to R153 and R156: which command words end in which error response; at most one each. `BADIDX`
belongs to `HLD` and `HRD`, `LENOVF` to `HBUILD`, and a word that is no command is `ILLEGAL`
whatever its other fields. -/
def Obligations.ErrorCausesOfEveryWord : Prop :=
  ∀ (s t : State) (w : CommandWord) (rest : List HostEvent) (r : Response),
    s.inputs = .command w :: rest → step s = .next t → t.responses = s.responses ++ [r] →
    (r.status = .illegal ↔ ∀ i, decode w ≠ .ok i) ∧
    (r.status = .badIdx ↔ ∃ idx : HdrIndex, 5 ≤ idx.toNat ∧
      (decode w = .ok (.hrd idx) ∨ ∃ v, decode w = .ok (.hld idx v))) ∧
    (r.status = .lenOvf ↔ s.block.cnt = 256 ∧ ∃ v, decode w = .ok (.hbuild v))

/-- When the word presented decodes to a command, the step is that command's meaning on the state
from which the word has been taken; nothing else is moved, since there is no program counter
(R27, R49). -/
def Obligations.StepRunsTheDecodedCommand : Prop :=
  ∀ (s : State) (w : CommandWord) (rest : List HostEvent) (i : Instr),
    s.inputs = .command w :: rest → decode w = .ok i → step s = exec i { s with inputs := rest }

/-- With nothing presented the block waits, unchanged. This is the model's choice
(notes/assumptions/3.md); R161 says the block is always ready and nothing needs to wake it. -/
def Obligations.StepWaitsForInput : Prop := ∀ s : State, s.inputs = [] → step s = .next s

/-- R49: commands are executed in the order presented, each to completion: the block after a list of
command words is the fold of the command step function over the list, and the responses come in
the same order, one for each word. -/
def Obligations.CommandListIsAFold : Prop :=
  ∀ (ws : List CommandWord) (s : State) (rest : List HostEvent),
    s.inputs = ws.map .command ++ rest →
    RunsTo ws.length s
      ⟨afterCommands s.block ws, rest, s.responses ++ answersToAll s.block ws⟩ ∧
    (answersToAll s.block ws).length = ws.length

/-- R192: every command presented is answered, so every finite list of host events runs to its end,
with one response for each command. -/
def Obligations.EveryInputListRunsToItsEnd : Prop :=
  ∀ s : State, ∃ t : State, RunsTo s.inputs.length s t ∧ t.inputs = [] ∧
    t.responses.length = s.responses.length + commandCount s.inputs

/-! ### The commands -/

/-- R140: `NOP`, the all-zero word, changes no state and answers `(OK, 0x0000)`; an illegal word
changes no state either, and the step on it differs from the step on `NOP` in the status of the
response alone. -/
def Obligations.NopChangesNothing : Prop :=
  decode 0x0000 = .ok .nop ∧
  (∀ s : State, exec .nop s = .next { s with responses := s.responses ++ [⟨.ok, 0x0000⟩] }) ∧
  ∀ (s : State) (w : CommandWord) (rest : List HostEvent), s.inputs = .command w :: rest →
    (∀ i, decode w ≠ .ok i) →
    step s = .next { s with inputs := rest, responses := s.responses ++ [⟨.illegal, 0x0000⟩] } ∧
    step { s with inputs := .command 0x0000 :: rest } =
      .next { s with inputs := rest, responses := s.responses ++ [⟨.ok, 0x0000⟩] }

/-- R88: `CRCINIT` sets `CRC` to `0xFFFF` and `CNT` to 0 and touches nothing else; it is the only
command that lowers `CNT` in the range the counter has. -/
def Obligations.CrcinitStartsANewComputation : Prop :=
  decode 0x1000 = .ok .crcinit ∧
  (∀ s : State, exec .crcinit s = .next
    { s with block := { s.block with crc := 0xFFFF, cnt := 0 },
             responses := s.responses ++ [⟨.ok, 0x0000⟩] }) ∧
  ∀ (i : Instr) (s t : State), CountInRange s.block → exec i s = .next t →
    t.block.cnt < s.block.cnt → i = .crcinit

/-- R89: `CRCB` steps `CRC` by its byte and counts it, saturating at 256; the header is untouched, and
`CRC` stays the CRC of all the bytes absorbed, however many; a zero byte still changes `CRC`. -/
def Obligations.CrcbAbsorbsOneByte : Prop :=
  (∀ v : Byte, decode (0x2000 + v.zeroExtend 16) = .ok (.crcb v)) ∧
  (∀ (v : Byte) (s : State), exec (.crcb v) s = .next
    { s with block := { s.block with
               crc := crcStep s.block.crc v
               cnt := BitVec.ofNat 9 (min (s.block.cnt.toNat + 1) 256) },
             responses := s.responses ++ [⟨.ok, 0x0000⟩] }) ∧
  (∀ (p : List Byte) (v : Byte) (s t : State), s.block.crc = crc p → exec (.crcb v) s = .next t →
    t.block.crc = crc (p ++ [v])) ∧
  crcStep 0xFFFF 0x00 = 0xE1F0 ∧ crcStep 0xFFFF 0x30 = 0xD7A3

/-- R90: `CRCRD` answers `CRC`, all 16 bits, and changes no state, so it neither ends nor restarts a
computation; after reset, and after `CRCINIT`, it answers `0xFFFF`, the CRC of the empty payload;
after the bytes of a payload so far it answers their CRC; the CRC of the seven bytes of the worked
example is `0x88A7`. -/
def Obligations.CrcrdReadsTheRegister : Prop :=
  decode 0x3000 = .ok .crcrd ∧
  (∀ s : State, exec .crcrd s =
    .next { s with responses := s.responses ++ [⟨.ok, s.block.crc⟩] }) ∧
  exec .crcrd State.reset = .next { State.reset with responses := [⟨.ok, 0xFFFF⟩] } ∧
  (∀ s t : State, exec .crcinit s = .next t →
    exec .crcrd t = .next { t with responses := t.responses ++ [⟨.ok, 0xFFFF⟩] }) ∧
  (∀ (s : State) (p : List Byte), EngineHolds p s.block →
    exec .crcrd s = .next { s with responses := s.responses ++ [⟨.ok, crc p⟩] }) ∧
  crc [] = 0xFFFF ∧ crc [0x30, 0x31, 0x32, 0x33, 0x34, 0x35, 0x36] = 0x88A7

/-- R91: `CNTRD` answers `CNT` zero-extended and changes no state; the datum is at most 256 in the
range the counter has. -/
def Obligations.CntrdReadsTheCounter : Prop :=
  decode 0x4000 = .ok .cntrd ∧
  (∀ s : State, exec .cntrd s =
    .next { s with responses := s.responses ++ [⟨.ok, s.block.cnt.zeroExtend 16⟩] }) ∧
  ∀ s : State, CountInRange s.block → (s.block.cnt.zeroExtend 16).toNat ≤ 256

/-- R92: `LRCRD` answers the LRC of the header bytes at addresses 1 to 4, zero-extended, and changes no
state; `HVALID` is 1 exactly when this datum equals `zext_16(HDR[0])`. -/
def Obligations.LrcrdComputesTheLrc : Prop :=
  decode 0x5000 = .ok .lrcrd ∧
  ∀ s : State, ∃ h1 h2 h3 h4 : Byte,
    memRead s.block.hdr 1 = some h1 ∧ memRead s.block.hdr 2 = some h2 ∧
    memRead s.block.hdr 3 = some h3 ∧ memRead s.block.hdr 4 = some h4 ∧
    exec .lrcrd s = .next { s with
      responses := s.responses ++ [⟨.ok, (lrc h1 h2 h3 h4).zeroExtend 16⟩] } ∧
    (exec .hvalid s = .next { s with responses := s.responses ++ [⟨.ok, 0x0001⟩] } ↔
      (lrc h1 h2 h3 h4).zeroExtend 16 = s.block.hdr.headerChecksum.zeroExtend 16)

/-- R113: `HCLR` makes the header register the empty header and leaves the engine alone; after it
`HVALID` answers 0, and `PVALID` answers 1 exactly when `CNT` is 0 and `CRC` is 0, which no state
with the engine registers of a payload (R32) has. -/
def Obligations.HclrMakesTheEmptyHeader : Prop :=
  decode 0x8000 = .ok .hclr ∧
  ∀ s : State, ∃ t : State, exec .hclr s = .next t ∧
    t = { s with block := { s.block with hdr := ⟨0x01, 0x00, 0x00, 0x00, 0x00⟩ },
                 responses := s.responses ++ [⟨.ok, 0x0000⟩] } ∧
    exec .hvalid t = .next { t with responses := t.responses ++ [⟨.ok, 0x0000⟩] } ∧
    (exec .pvalid t = .next { t with responses := t.responses ++ [⟨.ok, 0x0001⟩] } ↔
      s.block.cnt = 0 ∧ s.block.crc = 0) ∧
    (EngineTracks s.block →
      exec .pvalid t = .next { t with responses := t.responses ++ [⟨.ok, 0x0000⟩] })

/-- R114: `HLD` with an index of 0 to 4 writes its byte at that header address and leaves every other
address, and the engine, alone; with an index of 5 to 7 it answers `BADIDX` and changes nothing. -/
def Obligations.HldLoadsOneHeaderByte : Prop :=
  (∀ (i : HdrIndex) (v : Byte),
    decode (0x9000 + 256 * i.zeroExtend 16 + v.zeroExtend 16) = .ok (.hld i v)) ∧
  (∀ (i : HdrIndex) (v : Byte) (s : State), i.toNat ≤ 4 →
    ∃ h : Header,
      exec (.hld i v) s = .next
        { s with block := { s.block with hdr := h }, responses := s.responses ++ [⟨.ok, 0x0000⟩] } ∧
      memRead h i = some v ∧ ∀ a, a ≠ i → memRead h a = memRead s.block.hdr a) ∧
  ∀ (i : HdrIndex) (v : Byte) (s : State), 5 ≤ i.toNat →
    exec (.hld i v) s = .next { s with responses := s.responses ++ [⟨.badIdx, 0x0000⟩] }

/-- R115: `HRD` with an index of 0 to 4 answers the header byte at that address, zero-extended, and
changes no state; with an index of 5 to 7 it answers `BADIDX`. -/
def Obligations.HrdReadsOneHeaderByte : Prop :=
  (∀ i : HdrIndex, decode (0xA000 + 256 * i.zeroExtend 16) = .ok (.hrd i)) ∧
  (∀ (i : HdrIndex) (s : State), i.toNat ≤ 4 →
    ∃ b : Byte, memRead s.block.hdr i = some b ∧
      exec (.hrd i) s =
        .next { s with responses := s.responses ++ [⟨.ok, b.zeroExtend 16⟩] }) ∧
  ∀ (i : HdrIndex) (s : State), 5 ≤ i.toNat →
    exec (.hrd i) s = .next { s with responses := s.responses ++ [⟨.badIdx, 0x0000⟩] }

/-- R40 and R41: the header space has the five locations 0 to 4, location i being the header byte at
offset i; addresses 5, 6 and 7 name no location, to read or to write. -/
def Obligations.HeaderSpaceMap : Prop :=
  ∀ (h : Header) (v : Byte),
    memRead h 0 = some h.headerChecksum ∧ memRead h 1 = some h.packetId ∧
    memRead h 2 = some h.payloadLength ∧ memRead h 3 = some h.payloadChecksumLsb ∧
    memRead h 4 = some h.payloadChecksumMsb ∧
    ∀ i : HdrIndex, (5 ≤ i.toNat → memRead h i = none ∧ memWrite h i v = none) ∧
      (i.toNat ≤ 4 → (memRead h i).isSome ∧ (memWrite h i v).isSome)

/-- R116: with at most 255 bytes absorbed `HBUILD` writes the five header bytes from its operand,
`CNT` and `CRC`, low byte first, leaving the engine alone; if the engine registers are those of a
payload, the header is `build` of it, and `HVALID` and `PVALID` both answer 1 after it; the empty
payload's checksum is `(2 - id) mod 256`. With `CNT == 256` it answers `LENOVF` and changes nothing
(R153). -/
def Obligations.HbuildConstructsTheHeader : Prop :=
  (∀ v : Byte, decode (0xB000 + v.zeroExtend 16) = .ok (.hbuild v)) ∧
  (∀ (v : Byte) (s : State), s.block.cnt.toNat ≤ 255 →
    ∃ t : State, exec (.hbuild v) s = .next t ∧
      t = { s with
        block := { s.block with hdr :=
          ⟨lrc v (s.block.cnt.extractLsb 7 0) (s.block.crc.extractLsb 7 0)
              (s.block.crc.extractLsb 15 8),
            v, s.block.cnt.extractLsb 7 0, s.block.crc.extractLsb 7 0,
            s.block.crc.extractLsb 15 8⟩ }
        responses := s.responses ++ [⟨.ok, 0x0000⟩] } ∧
      (∀ p : List Byte, EngineHolds p s.block → build v p = some t.block.hdr) ∧
      exec .hvalid t = .next { t with responses := t.responses ++ [⟨.ok, 0x0001⟩] } ∧
      exec .pvalid t = .next { t with responses := t.responses ++ [⟨.ok, 0x0001⟩] }) ∧
  (∀ (v : Byte) (s : State), s.block.cnt = 256 →
    exec (.hbuild v) s = .next { s with responses := s.responses ++ [⟨.lenOvf, 0x0000⟩] }) ∧
  ∀ id : Byte, lrc id 0x00 0xFF 0xFF = 2 - id

/-- R117: `HVALID` answers 1 when `HDR[0]` is the LRC of the other four header bytes and 0 when it is
not, whatever `CRC` and `CNT` hold, and changes no state; after reset and after `HCLR` the answer
is 0. -/
def Obligations.HvalidJudgesTheHeader : Prop :=
  decode 0xC000 = .ok .hvalid ∧
  (∀ s : State, exec .hvalid s = .next { s with responses := s.responses ++
    [⟨.ok, if s.block.hdr.headerChecksum = lrc s.block.hdr.packetId s.block.hdr.payloadLength
        s.block.hdr.payloadChecksumLsb s.block.hdr.payloadChecksumMsb then 0x0001 else 0x0000⟩] }) ∧
  exec .hvalid State.reset = .next { State.reset with responses := [⟨.ok, 0x0000⟩] } ∧
  ∀ s t : State, exec .hclr s = .next t →
    exec .hvalid t = .next { t with responses := t.responses ++ [⟨.ok, 0x0000⟩] }

/-- R118: `PVALID` answers 1 exactly when `CNT` is the header's length and the two bytes of `CRC` are
the header's checksum bytes, reading neither `HDR[0]` nor `HDR[1]`, and changes no state; if the
engine registers are those of a payload, the answer is `is_packet_valid` of it; with `CNT == 256`
the answer is 0. -/
def Obligations.PvalidJudgesThePayload : Prop :=
  decode 0xD000 = .ok .pvalid ∧
  (∀ s : State, exec .pvalid s = .next { s with responses := s.responses ++
    [⟨.ok, if s.block.cnt = s.block.hdr.payloadLength.zeroExtend 9 ∧
        s.block.crc.extractLsb 7 0 = s.block.hdr.payloadChecksumLsb ∧
        s.block.crc.extractLsb 15 8 = s.block.hdr.payloadChecksumMsb then 0x0001 else 0x0000⟩] }) ∧
  (∀ (s : State) (p : List Byte), EngineHolds p s.block →
    exec .pvalid s = .next { s with responses := s.responses ++
      [⟨.ok, if isPacketValid s.block.hdr p then 0x0001 else 0x0000⟩] }) ∧
  ∀ s : State, s.block.cnt = 256 →
    exec .pvalid s = .next { s with responses := s.responses ++ [⟨.ok, 0x0000⟩] }

/-! ### What a command leaves alone -/

/-- R20's table: only `HCLR`, `HLD` and `HBUILD` write the header space; after any other command, one
that ends in an error response among them, every address reads as before. -/
def Obligations.OnlyHeaderCommandsWriteTheHeader : Prop :=
  ∀ (i : Instr) (s t : State), exec i s = .next t →
    i ≠ .hclr → (∀ a v, i ≠ .hld a v) → (∀ v, i ≠ .hbuild v) →
    ∀ a : HdrIndex, memRead t.block.hdr a = memRead s.block.hdr a

/-- R20's table and R21: only `CRCINIT` and `CRCB` write `CRC` and `CNT`. -/
def Obligations.OnlyEngineCommandsWriteTheEngine : Prop :=
  ∀ (i : Instr) (s t : State), exec i s = .next t → i ≠ .crcinit → (∀ v, i ≠ .crcb v) →
    t.block.crc = s.block.crc ∧ t.block.cnt = s.block.cnt

/-- R48: the reads have no side effects, so a read may be repeated or dropped without changing any
later response: a run of command words answers after a read as it does without it. -/
def Obligations.ReadsMayBeRepeatedOrDropped : Prop :=
  ∀ (i : Instr) (b : Block) (ws : List CommandWord),
    (i ∈ [.nop, .crcrd, .cntrd, .lrcrd, .hvalid, .pvalid] ∨ ∃ a, i = .hrd a) →
    afterCommands b (encode i :: ws) = afterCommands b ws ∧
    answersToAll b (encode i :: ws) = answersTo b (encode i) ++ answersToAll b ws

/-! ### Reset -/

/-- R30: the reset values, and what the commands `HVALID` and `PVALID` answer after reset: 0 both,
since the header is not valid and is not the header of the empty payload. -/
def Obligations.ResetValues : Prop :=
  State.reset.block.crc = 0xFFFF ∧ State.reset.block.cnt = 0 ∧
  memRead State.reset.block.hdr 0 = some 0x01 ∧ memRead State.reset.block.hdr 1 = some 0x00 ∧
  memRead State.reset.block.hdr 2 = some 0x00 ∧ memRead State.reset.block.hdr 3 = some 0x00 ∧
  memRead State.reset.block.hdr 4 = some 0x00 ∧
  headerValid State.reset.block.hdr = false ∧
  packetValid State.reset.block.hdr State.reset.block.crc State.reset.block.cnt = false ∧
  exec .hvalid State.reset = .next { State.reset with responses := [⟨.ok, 0x0000⟩] } ∧
  exec .pvalid State.reset = .next { State.reset with responses := [⟨.ok, 0x0000⟩] }

/-- R180: the reset event gives every state element its reset value at once, from any state, without a
response. -/
def Obligations.ResetEventFromAnyState : Prop :=
  ∀ (s : State) (rest : List HostEvent), s.inputs = .reset :: rest →
    step s = .next
      { block := ⟨0xFFFF, 0, ⟨0x01, 0x00, 0x00, 0x00, 0x00⟩⟩, inputs := rest,
        responses := s.responses }

/-- R183 and R142: the two commands `CRCINIT` and `HCLR`, in either order, bring every state element to
its reset value from any state. -/
def Obligations.CrcinitAndHclrReachTheResetState : Prop :=
  ∀ b : Block,
    afterCommands b [0x1000, 0x8000] = State.reset.block ∧
    afterCommands b [0x8000, 0x1000] = State.reset.block

/-! ### The pure functions -/

/-- R80: `lrc` on numbers: the sum modulo 256, complemented, incremented modulo 256. -/
def Obligations.LrcIsTheIncrementedComplement : Prop :=
  ∀ a b c d : Byte, (lrc a b c d).toNat =
    ((((a.toNat + b.toNat + c.toNat + d.toNat) % 256) ^^^ 0xFF) + 1) % 256

/-- R81: the equivalent forms of `lrc`: (a) without the inner reduction, (b) negation, (c) the only
byte that makes the sum zero. R82: the order of the inputs does not matter. -/
def Obligations.LrcEquivalentForms : Prop :=
  ∀ a b c d : Byte,
    (lrc a b c d).toNat = (((a.toNat + b.toNat + c.toNat + d.toNat) ^^^ 0xFF) + 1) % 256 ∧
    (lrc a b c d).toNat = (256 - (a.toNat + b.toNat + c.toNat + d.toNat) % 256) % 256 ∧
    (∀ h : Byte, h + a + b + c + d = 0 ↔ h = lrc a b c d) ∧
    ∀ l ∈ [a, b, c, d].permutations, ∀ w x y z, l = [w, x, y, z] → lrc w x y z = lrc a b c d

/-- R84: `crc_step` on numbers: the byte XORed into bits 15..8, then eight times a shift left that drops
bit 15 and XORs `0x1021` when the dropped bit was 1. -/
def Obligations.CrcStepIsEightShifts : Prop :=
  ∀ (c : CrcValue) (d : Byte), (crcStep c d).toNat =
    (fun r : Nat => if r.testBit 15 then (2 * r % 65536) ^^^ 0x1021 else 2 * r % 65536)^[8]
      (c.toNat ^^^ (256 * d.toNat))

/-- R84: for a fixed byte `crc_step` is a bijection on the register values, and for a fixed register
value the 256 bytes give 256 results. -/
def Obligations.CrcStepIsInjectiveInEachArgument : Prop :=
  (∀ d : Byte, Function.Bijective fun c : CrcValue => crcStep c d) ∧
  ∀ c : CrcValue, Function.Injective fun d : Byte => crcStep c d

/-- R85: the table-driven form, with the table as the spec prints it, equals the bit-wise form for every
register value and byte. -/
def Obligations.TableFormEqualsBitwiseForm : Prop :=
  crcTable.length = 256 ∧
  (∀ i : Byte, crcTable.getD i.toNat 0 = crcStep 0x0000 i) ∧
  ∀ (c : CrcValue) (d : Byte), crcStepTable c d = crcStep c d

/-- R86: `crc` is the left fold of `crc_step` from `0xFFFF`, first byte first, with no final XOR. -/
def Obligations.CrcIsTheFoldOfSteps : Prop :=
  crc [] = 0xFFFF ∧ (∀ (p : List Byte) (b : Byte), crc (p ++ [b]) = crcStep (crc p) b) ∧
  ∀ p : List Byte, crc p = p.foldl crcStep 0xFFFF

/-- R87 (d): appending the CRC most-significant byte first gives zero. -/
def Obligations.CrcResidueIsZero : Prop :=
  ∀ p : List Byte, crc (p ++ [(crc p).extractLsb 15 8, (crc p).extractLsb 7 0]) = 0x0000

/-- R87 (e): a change confined to one byte of a payload, the length kept, changes the CRC. -/
def Obligations.OneChangedByteChangesTheCrc : Prop :=
  ∀ (p q : List Byte) (b b' : Byte), b ≠ b' → crc (p ++ b :: q) ≠ crc (p ++ b' :: q)

/-- R111: a header is valid exactly when its first byte is the LRC of the others, which is when its five
bytes sum to zero modulo 256. -/
def Obligations.HeaderValidIsZeroByteSum : Prop :=
  ∀ h : Header,
    (headerValid h = true ↔ h.headerChecksum =
      lrc h.packetId h.payloadLength h.payloadChecksumLsb h.payloadChecksumMsb) ∧
    (headerValid h = true ↔
      (h.headerChecksum.toNat + h.packetId.toNat + h.payloadLength.toNat +
        h.payloadChecksumLsb.toNat + h.payloadChecksumMsb.toNat) % 256 = 0)

/-- R112: `packet_valid` is the three equalities; as a function of a payload it is 1 exactly when the
length is the header's and the CRC is `H[4] ++ H[3]`; the saturated count 256 matches no header;
`H[0]` and `H[1]` are not read. -/
def Obligations.PacketValidIsLengthAndCrc : Prop :=
  (∀ (h : Header) (c : CrcValue) (n : Count), packetValid h c n = true ↔
    n = h.payloadLength.zeroExtend 9 ∧ c.extractLsb 7 0 = h.payloadChecksumLsb ∧
      c.extractLsb 15 8 = h.payloadChecksumMsb) ∧
  (∀ (h : Header) (p : List Byte), isPacketValid h p =
    packetValid h (crc p) (BitVec.ofNat 9 (min p.length 256))) ∧
  (∀ (h : Header) (p : List Byte), isPacketValid h p = true ↔
    p.length = h.payloadLength.toNat ∧
      crc p = h.payloadChecksumMsb ++ h.payloadChecksumLsb) ∧
  (∀ (h : Header) (c : CrcValue), packetValid h c 256 = false) ∧
  ∀ (h : Header) (c : CrcValue) (n : Count) (x y : Byte),
    packetValid { h with headerChecksum := x, packetId := y } c n = packetValid h c n

/-- R119 and R120 (a): `build` gives the header of the payload, and every header it gives is valid, for
itself and for its payload. That `build` gives none for a payload of more than 255 bytes, where R119
leaves it undefined, is the model's choice (notes/assumptions/8.md, DEDUCED). -/
def Obligations.BuiltHeadersAreValid : Prop :=
  ∀ (id : Byte) (p : List Byte),
    (p.length ≤ 255 → ∃ h : Header, build id p = some h ∧
      h = ⟨lrc id (BitVec.ofNat 8 p.length) ((crc p).extractLsb 7 0) ((crc p).extractLsb 15 8), id,
        BitVec.ofNat 8 p.length, (crc p).extractLsb 7 0, (crc p).extractLsb 15 8⟩ ∧
      headerValid h = true ∧ isPacketValid h p = true ∧
      frameValid (headerBytes h ++ p) = some true) ∧
    (255 < p.length → build id p = none)

/-- R120 (b), (c), (d): the empty header is invalid; changing any single byte of a valid header breaks
it; for each choice of the other four bytes exactly one first byte makes a header valid. -/
def Obligations.OneChangedHeaderByteIsCaught : Prop :=
  headerValid ⟨0x01, 0, 0, 0, 0⟩ = false ∧ headerValid ⟨0x00, 0, 0, 0, 0⟩ = true ∧
  (∀ (h h' : Header) (i : HdrIndex) (v : Byte), headerValid h = true →
    memWrite h i v = some h' → memRead h i ≠ some v → headerValid h' = false) ∧
  ∀ b1 b2 b3 b4 : Byte, ∃! b0 : Byte, headerValid ⟨b0, b1, b2, b3, b4⟩ = true

/-- R120 (e), (f): a packet is not valid when the length differs, nor when a single payload byte of a
valid packet is changed, the length kept. -/
def Obligations.OneChangedPayloadByteIsCaught : Prop :=
  (∀ (h : Header) (p : List Byte), p.length ≠ h.payloadLength.toNat → isPacketValid h p = false) ∧
  ∀ (h : Header) (p q : List Byte) (b b' : Byte), isPacketValid h (p ++ b :: q) = true → b ≠ b' →
    isPacketValid h (p ++ b' :: q) = false

/-- R121: a frame of at least five bytes is valid exactly when its header bytes sum to zero modulo 256,
its length is five more than `f[2]`, and the CRC of the rest is `f[4] ++ f[3]`. That `frameValid`
gives none below five bytes, where R121 leaves it undefined, is the model's choice
(notes/assumptions/8.md, DEDUCED). -/
def Obligations.FrameValidIsTheConjunction : Prop :=
  (∀ (f0 f1 f2 f3 f4 : Byte) (p : List Byte),
    frameValid (f0 :: f1 :: f2 :: f3 :: f4 :: p) = some true ↔
      (f0.toNat + f1.toNat + f2.toNat + f3.toNat + f4.toNat) % 256 = 0 ∧
      (f0 :: f1 :: f2 :: f3 :: f4 :: p).length = 5 + f2.toNat ∧ crc p = f4 ++ f3) ∧
  ∀ f : List Byte, (frameValid f).isSome ↔ 5 ≤ f.length

/-! ### Invariants and runs -/

/-- R32: both reachable-state invariants hold at reset. -/
def Obligations.ResetMeetsTheInvariants : Prop :=
  CountInRange State.reset.block ∧ EngineHolds [] State.reset.block

/-- R32: every step keeps `0 <= CNT <= 256`. -/
def Obligations.EveryStepKeepsTheCountInRange : Prop :=
  ∀ s t : State, CountInRange s.block → step s = .next t → CountInRange t.block

/-- R32: every step keeps the tie between the two engine registers: there is a payload whose CRC is in
`CRC` and whose length, saturated at 256, is in `CNT`. -/
def Obligations.EveryStepKeepsTheEngineTied : Prop :=
  ∀ s t : State, EngineTracks s.block → step s = .next t → EngineTracks t.block

/-- R22 and R32: which payload the engine registers are those of: each step changes it as the event it
takes says, `CRCB` appending its byte, `CRCINIT` and reset starting again. -/
def Obligations.EngineFollowsTheAbsorbedPayload : Prop :=
  ∀ (s t : State) (e : HostEvent) (rest : List HostEvent) (p : List Byte),
    s.inputs = e :: rest → EngineHolds p s.block → step s = .next t →
    EngineHolds (absorbedBy p e) t.block

/-- R93, the streaming lemma: after `CRCINIT` or reset and then any host events among which there is
neither, the engine registers are those of the bytes of the `CRCB` commands among them, in
order, whatever else is interleaved. -/
def Obligations.StreamingComputesTheCrc : Prop :=
  ∀ (s : State) (start : HostEvent) (es rest : List HostEvent),
    s.inputs = start :: (es ++ rest) → restartsEngine start = true →
    (∀ e ∈ es, restartsEngine e = false) →
    ∃ t : State, RunsTo (es.length + 1) s t ∧ t.inputs = rest ∧
      EngineHolds (crcbBytes es) t.block

/-- R71 and R93: the pseudo-instruction `CRC` returns `crc` of its bytes, for any number of them; it
clobbers `CRC` and `CNT` only. -/
def Obligations.CrcPseudoReturnsTheCrc : Prop :=
  ∀ (s : State) (bs : List Byte), s.inputs = [] →
    RunsTo (bs.length + 2) (present s ((expand (.crc bs)).map encode))
      ⟨⟨crc bs, BitVec.ofNat 9 (min bs.length 256), s.block.hdr⟩, [],
        s.responses ++ List.replicate (bs.length + 1) ⟨.ok, 0x0000⟩ ++ [⟨.ok, crc bs⟩]⟩

/-- R71: the pseudo-instruction `LRC` returns `lrc` of its four bytes; it clobbers the header bytes 1
to 4 and not the first. -/
def Obligations.LrcPseudoReturnsTheLrc : Prop :=
  ∀ (s : State) (a b c d : Byte), s.inputs = [] →
    RunsTo 5 (present s ((expand (.lrc a b c d)).map encode))
      ⟨{ s.block with hdr := ⟨s.block.hdr.headerChecksum, a, b, c, d⟩ }, [],
        s.responses ++ List.replicate 4 ⟨.ok, 0x0000⟩ ++ [⟨.ok, (lrc a b c d).zeroExtend 16⟩]⟩

/-- R71 and R45: `HLOAD` and then `HREAD` gives the five loaded bytes back in wire order. -/
def Obligations.HloadThenHreadGivesTheBytes : Prop :=
  ∀ (s : State) (h : Header), s.inputs = [] →
    RunsTo 10
      (present s ((expand (.hload h.headerChecksum h.packetId h.payloadLength
        h.payloadChecksumLsb h.payloadChecksumMsb) ++ expand .hread).map encode))
      ⟨{ s.block with hdr := h }, [],
        s.responses ++ List.replicate 5 ⟨.ok, 0x0000⟩ ++
          (headerBytes h).map fun b => ⟨.ok, b.zeroExtend 16⟩⟩

/-- R71, R116, R120 (a) and R187: `MKHDR` with a payload of at most 255 bytes leaves `build` of it in the
header register, and `HVALID` and `PVALID` then both answer 1; with more than 255 bytes its last
response is `LENOVF`, and the header register is as before. -/
def Obligations.MkhdrBuildsAValidHeader : Prop :=
  ∀ (s : State) (id : Byte) (bs : List Byte), s.inputs = [] →
    (bs.length ≤ 255 → ∃ h : Header, build id bs = some h ∧
      RunsTo (bs.length + 4)
        (present s ((expand (.mkhdr id bs) ++ [Instr.hvalid, Instr.pvalid]).map encode))
        ⟨⟨crc bs, BitVec.ofNat 9 bs.length, h⟩, [],
          s.responses ++ List.replicate (bs.length + 2) ⟨.ok, 0x0000⟩ ++
            [⟨.ok, 0x0001⟩, ⟨.ok, 0x0001⟩]⟩) ∧
    (255 < bs.length →
      RunsTo (bs.length + 2) (present s ((expand (.mkhdr id bs)).map encode))
        ⟨⟨crc bs, 256, s.block.hdr⟩, [],
          s.responses ++ List.replicate (bs.length + 1) ⟨.ok, 0x0000⟩ ++
            [⟨.lenOvf, 0x0000⟩]⟩)

/-- R71 and R118: `CHKPKT` answers `is_packet_valid` of its bytes against the header in the register,
for any number of them. -/
def Obligations.ChkpktAnswersIsPacketValid : Prop :=
  ∀ (s : State) (bs : List Byte), s.inputs = [] →
    RunsTo (bs.length + 2) (present s ((expand (.chkpkt bs)).map encode))
      ⟨⟨crc bs, BitVec.ofNat 9 (min bs.length 256), s.block.hdr⟩, [],
        s.responses ++ List.replicate (bs.length + 1) ⟨.ok, 0x0000⟩ ++
          [⟨.ok, if isPacketValid s.block.hdr bs then 0x0001 else 0x0000⟩]⟩

/-- R71 and R121: `CHKFRAME` answers the two predicates on a candidate frame, whatever was in the
registers before, and both answers are 1 exactly when the frame is valid. -/
def Obligations.ChkframeAnswersBothPredicates : Prop :=
  ∀ (s : State) (h : Header) (p : List Byte), s.inputs = [] →
    RunsTo (p.length + 8)
      (present s ((expand (.chkframe h.headerChecksum h.packetId h.payloadLength
        h.payloadChecksumLsb h.payloadChecksumMsb p)).map encode))
      ⟨⟨crc p, BitVec.ofNat 9 (min p.length 256), h⟩, [],
        s.responses ++ List.replicate 5 ⟨.ok, 0x0000⟩ ++
          [⟨.ok, if headerValid h then 0x0001 else 0x0000⟩] ++
          List.replicate (p.length + 1) ⟨.ok, 0x0000⟩ ++
          [⟨.ok, if isPacketValid h p then 0x0001 else 0x0000⟩]⟩ ∧
    (frameValid (headerBytes h ++ p) = some true ↔
      headerValid h = true ∧ isPacketValid h p = true)

/-! ### The assembler -/

/-- R70 to R72: what the assembler makes of a line of each of the nineteen mnemonics, its operands
written in any of R70's forms: the words of R72 and of R71's expansions when the operands are of the
mnemonic's number and ranges, a refusal when they are not. A byte operand is 0 to 255 or an ASCII
character, an index 0 to 7. A text is assembled line by line. That an index is not quoted, that ASCII
is 0 to 127, letters of either case and leading zeros in a numeral are the model's choice
(notes/assumptions/9.md). -/
def Obligations.AssemblerRangesAndWords : Prop :=
  (∀ n : Nat, operandValue (.number n) = n) ∧ (∀ c : Char, operandValue (.quoted c) = c.toNat) ∧
  (∀ l ∈ [(Mnemonic.NOP, [0x0000]), (.CRCINIT, [0x1000]), (.CRCRD, [0x3000]), (.CNTRD, [0x4000]),
      (.LRCRD, [0x5000]), (.HCLR, [0x8000]), (.HVALID, [0xC000]), (.PVALID, [0xD000]),
      (.HREAD, [0xA000, 0xA100, 0xA200, 0xA300, 0xA400])],
    AssemblesTo l.1 [] l.2 ∧ ∀ os, os ≠ [] → IsRefused l.1 os) ∧
  (∀ l ∈ [(Mnemonic.CRCB, 0x2000), (.HBUILD, 0xB000)],
    (∀ v, IsByteOperand v → AssemblesTo l.1 [v] [l.2 + operandValue v]) ∧
    ∀ os, (∀ v, IsByteOperand v → os ≠ [v]) → IsRefused l.1 os) ∧
  (∀ i, IsIndexOperand i → AssemblesTo .HRD [i] [0xA000 + 256 * operandValue i]) ∧
  (∀ os, (∀ i, IsIndexOperand i → os ≠ [i]) → IsRefused .HRD os) ∧
  (∀ i v, IsIndexOperand i → IsByteOperand v →
    AssemblesTo .HLD [i, v] [0x9000 + 256 * operandValue i + operandValue v]) ∧
  (∀ os, (∀ i v, IsIndexOperand i → IsByteOperand v → os ≠ [i, v]) → IsRefused .HLD os) ∧
  (∀ os, AllBytes os → AssemblesTo .CRC os (absorbWords os ++ [0x3000])) ∧
  (∀ os, AllBytes os → AssemblesTo .CHKPKT os (absorbWords os ++ [0xD000])) ∧
  (∀ id os, AllBytes (id :: os) →
    AssemblesTo .MKHDR (id :: os) (absorbWords os ++ [0xB000 + operandValue id])) ∧
  (∀ a b c d, AllBytes [a, b, c, d] → AssemblesTo .LRC [a, b, c, d]
    [0x9100 + operandValue a, 0x9200 + operandValue b, 0x9300 + operandValue c,
      0x9400 + operandValue d, 0x5000]) ∧
  (∀ a b c d e, AllBytes [a, b, c, d, e] →
    AssemblesTo .HLOAD [a, b, c, d, e] (loadWords a b c d e)) ∧
  (∀ a b c d e p, AllBytes (a :: b :: c :: d :: e :: p) →
    AssemblesTo .CHKFRAME (a :: b :: c :: d :: e :: p)
      (loadWords a b c d e ++ [0xC000] ++ absorbWords p ++ [0xD000])) ∧
  (∀ os, ¬ AllBytes os → IsRefused .CRC os ∧ IsRefused .CHKPKT os) ∧
  (∀ os, ¬ (AllBytes os ∧ 1 ≤ os.length) → IsRefused .MKHDR os) ∧
  (∀ os, ¬ (AllBytes os ∧ os.length = 4) → IsRefused .LRC os) ∧
  (∀ os, ¬ (AllBytes os ∧ os.length = 5) → IsRefused .HLOAD os) ∧
  (∀ os, ¬ (AllBytes os ∧ 5 ≤ os.length) → IsRefused .CHKFRAME os) ∧
  (∀ text, '\n' ∉ text → assemble text = (assembleLine text).map (·.map encode)) ∧
  ∀ text more is ws, '\n' ∉ text → assembleLine text = .ok is → assemble more = .ok ws →
    assemble (text ++ '\n' :: more) = .ok (is.map encode ++ ws)
end

