-- ==== Sys2Proof/Laws/Assembler.lean ====
section
/-!
SUPPORT. What the assembler makes of a written line, said once: its tokens, its operands, and the
commands of a line written as `lineText` writes it (30_encoding.md R70).
-/

namespace Sys2Proof.Machine

/-! ### Operands -/

theorem isByte_iff (o : Operand) : o.isByte = true ↔ IsByteOperand o := by
  cases o <;> simp [Operand.isByte, IsByteOperand]

theorem isIndex_iff (o : Operand) : o.isIndex = true ↔ IsIndexOperand o := by
  cases o <;> simp [Operand.isIndex, IsIndexOperand]

theorem all_isByte_iff (os : List Operand) : os.all Operand.isByte = true ↔ AllBytes os := by
  simp [isByte_iff, AllBytes]

/-- A byte operand fits its field. -/
theorem operandByte_toNat {o : Operand} (h : IsByteOperand o) :
    (operandByte o).toNat = operandValue o := by
  rcases h with ⟨v, hv, rfl⟩ | ⟨c, hc, rfl⟩ <;> simp [operandByte, operandValue] <;> omega

/-- An index operand fits its field. -/
theorem operandIndex_toNat {o : Operand} (h : IsIndexOperand o) :
    (operandIndex o).toNat = operandValue o := by
  obtain ⟨i, hi, rfl⟩ := h
  simp [operandIndex, operandValue]
  omega

/-! ### Tokens -/

/-- The characters that end a word (notes/assumptions/9.md). -/
def endsWord (c : Char) : Bool :=
  c == ';' || c == ',' || c == ' ' || c == '\t' || c == '\r' || c == '\''

/-- Characters that end no word are gathered into the word being read. -/
theorem lexLine_word {t : List Char} (ht : ∀ c ∈ t, endsWord c = false) (acc rest : List Char) :
    lexLine acc (t ++ rest) = lexLine (t.reverse ++ acc) rest := by
  induction t generalizing acc with
  | nil => rfl
  | cons c t ih =>
    have hc := ht c (by simp)
    simp [endsWord] at hc
    rw [List.cons_append, lexLine.eq_def]
    simp [hc, ih fun d hd => ht d (by simp [hd])]

theorem lexLine_comma (acc rest : List Char) :
    lexLine acc (',' :: rest) = (lexLine [] rest).map fun ts => flushWord acc (.comma :: ts) := by
  rw [lexLine.eq_def]
  rfl

theorem lexLine_space (acc rest : List Char) :
    lexLine acc (' ' :: rest) = (lexLine [] rest).map (flushWord acc) := by
  rw [lexLine.eq_def]
  rfl

/-! ### Numerals -/

/-- A digit has its value, and ends no word. -/
theorem digitValue_digit {base d : Nat} {c : Char} (h : IsDigit d c) (hd : d < base)
    (hbase : base ≤ 16) : digitValue base c = some d ∧ endsWord c = false := by
  have : d < 16 := by omega
  interval_cases d <;> simp [IsDigit] at h <;> rcases h with rfl | rfl <;> constructor <;>
    first | decide | (unfold digitValue; simp; omega)

/-- A run of digits has its value, and none of them ends a word. -/
theorem digitsValue_digits {base : Nat} (hbase : base ≤ 16) {ds : List Nat} {t : List Char}
    (h : List.Forall₂ IsDigit ds t) (hd : ∀ d ∈ ds, d < base) (n : Nat) :
    digitsValue base n t = some (ds.foldl (fun m d => base * m + d) n) ∧
      ∀ c ∈ t, endsWord c = false := by
  induction h generalizing n with
  | nil => exact ⟨rfl, by simp⟩
  | cons hc _ ih =>
    have head := digitValue_digit hc (hd _ (by simp)) hbase
    have tail := ih (fun d h => hd d (by simp [h]))
    rw [digitsValue, head.1]
    refine ⟨(tail _).1, fun c hm => ?_⟩
    rcases List.mem_cons.1 hm with rfl | hm
    · exact head.2
    · exact (tail 0).2 c hm

/-- A numeral is not empty, has its value, and holds no character that ends a word. -/
theorem digitsValue_numeral {base n : Nat} {t : List Char} (hbase : base ≤ 16)
    (h : Numeral base n t) :
    t ≠ [] ∧ digitsValue base 0 t = some n ∧ ∀ c ∈ t, endsWord c = false := by
  obtain ⟨ds, hds, hne, hlt, rfl⟩ := h
  refine ⟨?_, digitsValue_digits hbase hds hlt 0⟩
  rintro rfl
  cases hds
  exact hne rfl

/-- A number is read back from its decimal or hexadecimal writing, which is one word. -/
theorem numberValue_written {n : Nat} {t : List Char} (h : WrittenAs (.number n) t) :
    t ≠ [] ∧ numberValue t = some n ∧ ∀ c ∈ t, endsWord c = false := by
  rcases h with h | ⟨x, rfl, h⟩
  · obtain ⟨hne, hv, hw⟩ := digitsValue_numeral (by decide) h
    refine ⟨hne, ?_, hw⟩
    unfold numberValue
    split
    · exact absurd rfl hne
    · simp [digitsValue, show digitValue 10 '0' = some 0 by decide,
        show digitValue 10 'x' = none by decide] at hv
    · exact hv
  · obtain ⟨hne, hv, hw⟩ := digitsValue_numeral (by decide) h
    refine ⟨by simp, by simp [numberValue, hne, hv], ?_⟩
    simp only [List.mem_cons]
    rintro c (rfl | rfl | hc)
    · rfl
    · rfl
    · exact hw c hc

/-! ### A line -/

/-- A written operand, before a comma or at the end of the line, is one token, read back as the
operand. -/
theorem lexLine_operand {o : Operand} {t : List Char} (h : WrittenAs o t) :
    ∃ k : Token, parseOperand k = .ok o ∧
      lexLine [] t = .ok [k] ∧
      ∀ rest, lexLine [] (t ++ ',' :: rest) =
        (lexLine [] rest).map fun ts => k :: .comma :: ts := by
  cases o with
  | number n =>
    obtain ⟨hne, hv, hw⟩ := numberValue_written h
    refine ⟨.word t, by simp [parseOperand, hv], ?_, fun rest => ?_⟩
    · have := lexLine_word hw [] []
      simpa [lexLine, flushWord, hne] using this
    · rw [lexLine_word hw, lexLine_comma]
      simp [flushWord, hne]
  | quoted c =>
    cases h
    refine ⟨.quoted c, rfl, rfl, fun rest => ?_⟩
    rw [List.cons_append, lexLine.eq_def]
    simp [flushWord, lexLine_comma]
    cases lexLine [] rest <;> rfl

/-- Written operands are read back, at the beginning of the operands and after a comma. -/
theorem parseOperands_written {os : List Operand} {ts : List (List Char)}
    (h : List.Forall₂ WrittenAs os ts) :
    ∃ ks : List Token, lexLine [] (List.intercalate [',', ' '] ts) = .ok ks ∧
      parseOperands ks = .ok os ∧ (os ≠ [] → parseMoreOperands (.comma :: ks) = .ok os) := by
  induction h with
  | nil => exact ⟨[], rfl, rfl, by simp⟩
  | @cons o t os ts ho hos ih =>
    obtain ⟨k, hk, hend, hcomma⟩ := lexLine_operand ho
    cases hos with
    | nil =>
      exact ⟨[k], by simpa [List.intercalate] using hend, by simp [parseOperands, hk, parseMoreOperands],
        by simp [hk, parseMoreOperands]⟩
    | @cons o' t' os ts ho' hos' =>
      obtain ⟨ks, hlex, -, hmore⟩ := ih
      refine ⟨k :: .comma :: ks, ?_, ?_, fun _ => ?_⟩
      · have split : List.intercalate [',', ' '] (t :: t' :: ts) =
            t ++ ',' :: ' ' :: List.intercalate [',', ' '] (t' :: ts) := by
          simp [List.intercalate, List.intersperse]
        rw [split, hcomma, lexLine_space, hlex]
        rfl
      · rw [parseOperands, hk, hmore (by simp)]
      · rw [parseMoreOperands, hk, hmore (by simp)]

/-- What the assembler makes of a line written as `lineText` writes it: its commands when it is well
formed, a refusal when it is not. -/
theorem assembleLine_lineText (m : Mnemonic) {os : List Operand} {ts : List (List Char)}
    (h : List.Forall₂ WrittenAs os ts) :
    assembleLine (lineText m ts) =
      if Line.wellFormed ⟨m, os⟩ then .ok (lineInstrs ⟨m, os⟩) else .error .illFormed := by
  obtain ⟨ks, hlex, hparse, -⟩ := parseOperands_written h
  have hname : ∀ c ∈ mnemonicText m, endsWord c = false := by
    have : (mnemonicText m).all (fun c => !endsWord c) = true := by cases m <;> decide +kernel
    simpa using this
  have hne : mnemonicText m ≠ [] := by cases m <;> decide
  have hlookup : mnemonicNames.lookup (mnemonicText m) = some m := by cases m <;> decide
  have htokens : lexLine [] (lineText m ts) = .ok (.word (mnemonicText m) :: ks) := by
    rw [lineText, lexLine_word hname, lexLine_space, hlex]
    simp [Except.map, flushWord, hne]
  simp only [assembleLine, htokens, parseLine, hlookup, hparse]

/-- A line that is well formed assembles to the words of its commands. -/
theorem assemblesTo_of_wellFormed {m : Mnemonic} {os : List Operand} {ws : List Nat}
    (hwf : Line.wellFormed ⟨m, os⟩ = true)
    (hws : (lineInstrs ⟨m, os⟩).map (fun i => (encode i).toNat) = ws) : AssemblesTo m os ws :=
  fun _ h => ⟨_, by rw [assembleLine_lineText m h, if_pos hwf], hws⟩

/-- A line that is not well formed is refused. -/
theorem isRefused_of_not_wellFormed {m : Mnemonic} {os : List Operand}
    (hwf : Line.wellFormed ⟨m, os⟩ = false) : IsRefused m os :=
  fun _ h => by rw [assembleLine_lineText m h, hwf]; rfl

/-- A text is cut at its first newline. -/
theorem splitLines_newline {l : List Char} (h : '\n' ∉ l) :
    splitLines l = [l] ∧ ∀ more, splitLines (l ++ '\n' :: more) = l :: splitLines more := by
  induction l with
  | nil => simp [splitLines]
  | cons c l ih =>
    simp only [List.mem_cons, not_or] at h
    simp [splitLines, Ne.symm h.1, ih h.2]

end Sys2Proof.Machine
end

