-- ==== Sys2Proof/Laws/Checksum.lean ====
section
/-!
SUPPORT. Small lemmas about `lrc` and the CRC fold.
-/

namespace Sys2Proof.Machine

@[simp] theorem crcFrom_nil (c : CrcValue) : crcFrom c [] = c := rfl

@[simp] theorem crcFrom_cons (c : CrcValue) (b : Byte) (bs : List Byte) :
    crcFrom c (b :: bs) = crcFrom (crcStep c b) bs := rfl

/-- The fold over two lists is the fold over the second from the fold over the first. -/
theorem crcFrom_append (c : CrcValue) (p q : List Byte) :
    crcFrom c (p ++ q) = crcFrom (crcFrom c p) q := List.foldl_append

/-- With the final XOR zero, `crc` is the fold itself. -/
theorem crc_eq_crcFrom (p : List Byte) : crc p = crcFrom 0xFFFF p := by
  simp [crc, Config.crcXorOut, Config.crcInit]

/-- Complement and increment are negation. -/
theorem lrc_eq_neg (a b c d : Byte) : lrc a b c d = -(a + b + c + d) := by
  simp only [lrc]
  rw [show (0xFF : Byte) = BitVec.allOnes 8 from rfl, BitVec.xor_allOnes, BitVec.neg_eq_not_add]
  rfl

end Sys2Proof.Machine
end

