-- ==== Sys2Proof/Laws/Decode.lean ====
section
/-!
SUPPORT. What the decoder's format checks say, and the fields of an assembled word.
-/

namespace Sys2Proof

theorem decodeN_ok {w : CommandWord} {i j : Instr} (h : decodeN w i = .ok j) :
    j = i ∧ idxField w = 0 ∧ imm8Field w = 0 := by
  unfold decodeN at h
  split at h
  · rename_i hz
    exact ⟨(Except.ok.inj h).symm, hz⟩
  · cases h

theorem decodeD_ok {w : CommandWord} {f : Byte → Instr} {j : Instr} (h : decodeD w f = .ok j) :
    j = f (imm8Field w) ∧ idxField w = 0 := by
  unfold decodeD at h
  split at h
  · rename_i hz
    exact ⟨(Except.ok.inj h).symm, hz⟩
  · cases h

theorem decodeX_ok {w : CommandWord} {f : HdrIndex → Instr} {j : Instr} (h : decodeX w f = .ok j) :
    j = f (idxField w) ∧ imm8Field w = 0 := by
  unfold decodeX at h
  split at h
  · rename_i hz
    exact ⟨(Except.ok.inj h).symm, hz⟩
  · cases h

theorem decodeXD_ok {w : CommandWord} {f : HdrIndex → Byte → Instr} {j : Instr}
    (h : decodeXD w f = .ok j) : j = f (idxField w) (imm8Field w) := (Except.ok.inj h).symm

/-- A word with the reserved bit set is no command (30_encoding.md R67). -/
theorem decode_reservedBit {w : CommandWord} (h : rsvField w ≠ 0) :
    decode w = .error .reservedBitSet := if_pos h

@[simp] theorem opField_assembleWord (o : BitVec 4) (i : HdrIndex) (v : Byte) :
    opField (assembleWord o i v) = o := by
  ext k hk
  simp only [opField, assembleWord, BitVec.getElem_extractLsb', BitVec.getLsbD_append]
  have a : ¬ 12 + k < 8 := by omega
  have b : ¬ 12 + k - 8 < 3 := by omega
  have c : ¬ 12 + k - 8 - 3 < 1 := by omega
  have d : 12 + k - 8 - 3 - 1 = k := by omega
  simp [a, b, c, d, BitVec.getLsbD_eq_getElem hk]

@[simp] theorem rsvField_assembleWord (o : BitVec 4) (i : HdrIndex) (v : Byte) :
    rsvField (assembleWord o i v) = 0 := by
  ext k hk
  simp only [rsvField, assembleWord, BitVec.getElem_extractLsb', BitVec.getLsbD_append]
  have a : ¬ 11 + k < 8 := by omega
  have b : ¬ 11 + k - 8 < 3 := by omega
  have c : 11 + k - 8 - 3 < 1 := by omega
  simp [a, b, c]

@[simp] theorem idxField_assembleWord (o : BitVec 4) (i : HdrIndex) (v : Byte) :
    idxField (assembleWord o i v) = i := by
  ext k hk
  simp only [idxField, assembleWord, BitVec.getElem_extractLsb', BitVec.getLsbD_append]
  have a : ¬ 8 + k < 8 := by omega
  have b : 8 + k - 8 < 3 := by omega
  have d : 8 + k - 8 = k := by omega
  simp [a, d, hk]

@[simp] theorem imm8Field_assembleWord (o : BitVec 4) (i : HdrIndex) (v : Byte) :
    imm8Field (assembleWord o i v) = v := by
  ext k hk
  simp only [imm8Field, assembleWord, BitVec.getElem_extractLsb', BitVec.getLsbD_append]
  simp [hk]

/-- Every word is its four fields side by side. -/
theorem assembleWord_fields (w : CommandWord) (h : rsvField w = 0) :
    assembleWord (opField w) (idxField w) (imm8Field w) = w := by
  apply BitVec.eq_of_getLsbD_eq
  intro k hk
  simp only [assembleWord, BitVec.getLsbD_append]
  have hr : w.getLsbD 11 = false := by
    have := congrArg (fun x : BitVec 1 => x.getLsbD 0) h
    simpa [rsvField] using this
  by_cases h8 : k < 8
  · simp [h8, imm8Field]
  by_cases h11 : k - 8 < 3
  · have e : 8 + (k - 8) = k := by omega
    simp [h8, h11, idxField, e]
  by_cases h12 : k - 8 - 3 < 1
  · have e : k = 11 := by omega
    subst e
    simpa using hr
  · have e : 12 + (k - 8 - 3 - 1) = k := by omega
    have f : k - 8 - 3 - 1 < 4 := by omega
    simp [h8, h11, h12, opField, e, f]

end Sys2Proof
end

