-- ==== Sys2Proof/Laws/State.lean ====
section
/-!
SUPPORT. One lemma per field per update of `State`, true by `rfl`, so that no proof unfolds a record
update.
-/

namespace Sys2Proof.Machine

@[simp] theorem answer_block (s : State) (r : Response) : (answer s r).block = s.block := rfl
@[simp] theorem answer_inputs (s : State) (r : Response) : (answer s r).inputs = s.inputs := rfl
@[simp] theorem answer_responses (s : State) (r : Response) :
    (answer s r).responses = s.responses ++ [r] := rfl

@[simp] theorem respond_block (s : State) (d : Datum) : (respond s d).block = s.block := rfl
@[simp] theorem respond_inputs (s : State) (d : Datum) : (respond s d).inputs = s.inputs := rfl
@[simp] theorem respond_responses (s : State) (d : Datum) :
    (respond s d).responses = s.responses ++ [⟨.ok, d⟩] := rfl

@[simp] theorem raise_block (s : State) (e : ErrorCause) : (raise s e).block = s.block := rfl
@[simp] theorem raise_inputs (s : State) (e : ErrorCause) : (raise s e).inputs = s.inputs := rfl
@[simp] theorem raise_responses (s : State) (e : ErrorCause) :
    (raise s e).responses = s.responses ++ [⟨errorStatus e, 0⟩] := rfl

@[simp] theorem setEngine_crc (s : State) (c : CrcValue) (n : Count) :
    (setEngine s c n).block.crc = c := rfl
@[simp] theorem setEngine_cnt (s : State) (c : CrcValue) (n : Count) :
    (setEngine s c n).block.cnt = n := rfl
@[simp] theorem setEngine_hdr (s : State) (c : CrcValue) (n : Count) :
    (setEngine s c n).block.hdr = s.block.hdr := rfl
@[simp] theorem setEngine_inputs (s : State) (c : CrcValue) (n : Count) :
    (setEngine s c n).inputs = s.inputs := rfl
@[simp] theorem setEngine_responses (s : State) (c : CrcValue) (n : Count) :
    (setEngine s c n).responses = s.responses := rfl

@[simp] theorem setHeader_crc (s : State) (h : Header) : (setHeader s h).block.crc = s.block.crc := rfl
@[simp] theorem setHeader_cnt (s : State) (h : Header) : (setHeader s h).block.cnt = s.block.cnt := rfl
@[simp] theorem setHeader_hdr (s : State) (h : Header) : (setHeader s h).block.hdr = h := rfl
@[simp] theorem setHeader_inputs (s : State) (h : Header) : (setHeader s h).inputs = s.inputs := rfl
@[simp] theorem setHeader_responses (s : State) (h : Header) :
    (setHeader s h).responses = s.responses := rfl

@[simp] theorem resetBlock_block (s : State) : (resetBlock s).block = Block.atReset := rfl
@[simp] theorem resetBlock_inputs (s : State) : (resetBlock s).inputs = s.inputs := rfl
@[simp] theorem resetBlock_responses (s : State) : (resetBlock s).responses = s.responses := rfl

@[simp] theorem present_block (s : State) (ws : List CommandWord) : (present s ws).block = s.block := rfl
@[simp] theorem present_inputs (s : State) (ws : List CommandWord) :
    (present s ws).inputs = s.inputs ++ ws.map .command := rfl
@[simp] theorem present_responses (s : State) (ws : List CommandWord) :
    (present s ws).responses = s.responses := rfl

@[simp] theorem presentFirst_block (s : State) (w : CommandWord) :
    (presentFirst s w).block = s.block := rfl
@[simp] theorem presentFirst_inputs (s : State) (w : CommandWord) :
    (presentFirst s w).inputs = .command w :: s.inputs := rfl
@[simp] theorem presentFirst_responses (s : State) (w : CommandWord) :
    (presentFirst s w).responses = s.responses := rfl

@[simp] theorem reset_block : State.reset.block = Block.atReset := rfl
@[simp] theorem reset_inputs : State.reset.inputs = [] := rfl
@[simp] theorem reset_responses : State.reset.responses = [] := rfl

@[simp] theorem atReset_crc : Block.atReset.crc = 0xFFFF := rfl
@[simp] theorem atReset_cnt : Block.atReset.cnt = 0 := rfl
@[simp] theorem atReset_hdr : Block.atReset.hdr = emptyHeader := rfl

end Sys2Proof.Machine
end

