-- ==== Sys2Proof/Laws/Ops.lean ====
section
/-!
SUPPORT. What each shared operation can do, said once.
-/

namespace Sys2Proof.Machine

/-- Answering changes neither the block nor what is still to be presented. -/
theorem respond_spec (s : State) (d : Datum) :
    respond s d = { s with responses := s.responses ++ [⟨.ok, d⟩] } := rfl

/-- Taking an error writes no state element; its response has datum zero and is not `OK`. -/
theorem raise_spec (s : State) (e : ErrorCause) :
    raise s e = { s with responses := s.responses ++ [⟨errorStatus e, 0⟩] }
      ∧ errorStatus e ≠ .ok := by
  cases e <;> simp [raise, answer, errorStatus]

/-- The eight values of the index field. -/
theorem hdrIndex_cases (i : HdrIndex) :
    i = 0 ∨ i = 1 ∨ i = 2 ∨ i = 3 ∨ i = 4 ∨ i = 5 ∨ i = 6 ∨ i = 7 := by
  revert i
  decide

/-- A read of the header space answers exactly at addresses 0 to 4. -/
theorem memRead_isSome (h : Header) (i : HdrIndex) :
    (memRead h i).isSome = decide (i.toNat ≤ 4) := by
  rcases hdrIndex_cases i with rfl | rfl | rfl | rfl | rfl | rfl | rfl | rfl <;> rfl

/-- A write of the header space answers exactly at addresses 0 to 4. -/
theorem memWrite_isSome (h : Header) (i : HdrIndex) (v : Byte) :
    (memWrite h i v).isSome = decide (i.toNat ≤ 4) := by
  rcases hdrIndex_cases i with rfl | rfl | rfl | rfl | rfl | rfl | rfl | rfl <;> rfl

/-- A write puts its byte at its address. -/
theorem memRead_memWrite_same {h h' : Header} {i : HdrIndex} {v : Byte}
    (hw : memWrite h i v = some h') : memRead h' i = some v := by
  rcases hdrIndex_cases i with rfl | rfl | rfl | rfl | rfl | rfl | rfl | rfl <;>
    cases hw <;> rfl

/-- A write leaves every other address alone. -/
theorem memRead_memWrite_other {h h' : Header} {i a : HdrIndex} {v : Byte}
    (hw : memWrite h i v = some h') (ha : a ≠ i) : memRead h' a = memRead h a := by
  rcases hdrIndex_cases i with rfl | rfl | rfl | rfl | rfl | rfl | rfl | rfl <;> cases hw <;>
    rcases hdrIndex_cases a with rfl | rfl | rfl | rfl | rfl | rfl | rfl | rfl <;>
    first | rfl | exact absurd rfl ha

/-- Two headers that read alike at every address are the same header. -/
theorem header_ext_read {h h' : Header} (e : ∀ a, memRead h a = memRead h' a) : h = h' := by
  have e0 := e 0
  have e1 := e 1
  have e2 := e 2
  have e3 := e 3
  have e4 := e 4
  simp [memRead] at e0 e1 e2 e3 e4
  cases h
  cases h'
  simp_all

/-- The saturated count as a number. -/
theorem saturatedCount_toNat (n : Nat) : (saturatedCount n).toNat = min n 256 := by
  simp only [saturatedCount, Config.countSaturation, BitVec.toNat_ofNat]
  omega

/-- The saturating increment as a number. -/
theorem countUp_toNat (n : Count) : (countUp n).toNat = min (n.toNat + 1) 256 :=
  saturatedCount_toNat _

/-- Counting one byte more after a saturated count is the saturated count of one byte more. -/
theorem countUp_saturatedCount (n : Nat) : countUp (saturatedCount n) = saturatedCount (n + 1) := by
  apply BitVec.eq_of_toNat_eq
  rw [countUp_toNat, saturatedCount_toNat, saturatedCount_toNat]
  omega

end Sys2Proof.Machine
end

