-- ==== Sys2Proof/Laws/PerInstr.lean ====
section
/-!
SUPPORT. A fact about every command as syntax, one lemma per constructor: its word belongs to its
row of the opcode map (30_encoding.md R63, R72).
-/

namespace Sys2Proof.Laws.EncodesRow

/-- `(encode i AND mask) == match` for the row of `i` (R63). -/
def Statement (i : Instr) : Prop := (opcodeRow i).matches (encode i) = true

theorem nop : Statement .nop := rfl
theorem crcinit : Statement .crcinit := rfl
theorem crcb (imm8 : Byte) : Statement (.crcb imm8) := by
  revert imm8; unfold Statement; decide +kernel
theorem crcrd : Statement .crcrd := rfl
theorem cntrd : Statement .cntrd := rfl
theorem lrcrd : Statement .lrcrd := rfl
theorem hclr : Statement .hclr := rfl
theorem hld (idx : HdrIndex) (imm8 : Byte) : Statement (.hld idx imm8) := by
  revert idx imm8; unfold Statement; decide +kernel
theorem hrd (idx : HdrIndex) : Statement (.hrd idx) := by
  revert idx; unfold Statement; decide +kernel
theorem hbuild (imm8 : Byte) : Statement (.hbuild imm8) := by
  revert imm8; unfold Statement; decide +kernel
theorem hvalid : Statement .hvalid := rfl
theorem pvalid : Statement .pvalid := rfl

end Sys2Proof.Laws.EncodesRow
end

