-- ==== Sys2Proof/Laws/Step.lean ====
section
/-!
SUPPORT. How the block takes what is presented to it.
-/

namespace Sys2Proof.Machine

@[simp] theorem nextInput_cons (b : Block) (e : HostEvent) (rest : List HostEvent) (rs : List Response) :
    nextInput ⟨b, e :: rest, rs⟩ = some (e, ⟨b, rest, rs⟩) := rfl

@[simp] theorem nextInput_nil (b : Block) (rs : List Response) : nextInput ⟨b, [], rs⟩ = none := rfl

theorem presentedCommand_ok {w : CommandWord} {i : Instr} (h : decode w = .ok i) :
    presentedCommand w = .ok i := by simp [presentedCommand, h]

theorem presentedCommand_error {w : CommandWord} {e : DecodeError} (h : decode w = .error e) :
    presentedCommand w = .error .illegal := by simp [presentedCommand, h]

/-- The word of an opcode-table row is what is presented next. -/
@[simp] theorem withFetchWord_inputs (s : State) (nbits w : Nat) :
    (s.withFetchWord nbits w).inputs = .command (tableWord nbits w) :: s.inputs := rfl

@[simp] theorem withFetchWord_block (s : State) (nbits w : Nat) :
    (s.withFetchWord nbits w).block = s.block := rfl

end Sys2Proof.Machine
end

