-- ==== Sys2Proof/Tests/Slice0.lean ====
section
/-!
SUPPORT. Tests. Expected values are the spec's own: the rows of 95_test_vectors.md (named beside each
test), the worked examples of the rules, and words written out from the encodings of 30_encoding.md.
The last part holds, for each statement with hypotheses, a concrete state and operands that meet them.
-/

namespace Sys2Proof.Tests

open Sys2Proof Sys2Proof.Machine

/-- A state with the given registers that is about to be presented one word. -/
def given (c : CrcValue) (n : Count) (h : Header) (w : CommandWord) : State :=
  ⟨⟨c, n, h⟩, [.command w], []⟩

/-- The state a step answers, if it answers one. -/
def stepped (s : State) : Option State :=
  match step s with
  | .next t => some t
  | _ => none

/-- The registers and the one response after a step on one presented word. -/
def gives (c : CrcValue) (n : Count) (h : Header) (r : Response) : Option State :=
  some ⟨⟨c, n, h⟩, [], [r]⟩

/-- The header of program P1, `06 01 01 45 B3`. -/
def p1 : Header := ⟨0x06, 0x01, 0x01, 0x45, 0xB3⟩

/-- The header of the reset state, `01 00 00 00 00`. -/
def h0 : Header := ⟨0x01, 0x00, 0x00, 0x00, 0x00⟩

/-! ### Well-formedness of a line: one ill-formed line for each check (R70, R71, R72) -/

theorem test_line_operand_on_none : Line.wellFormed ⟨.NOP, [.number 1]⟩ = false := by decide
theorem test_line_operand_missing : Line.wellFormed ⟨.CRCB, []⟩ = false := by decide
theorem test_line_byte_too_large : Line.wellFormed ⟨.CRCB, [.number 256]⟩ = false := by decide
theorem test_line_character_not_ascii : Line.wellFormed ⟨.HBUILD, [.quoted 'é']⟩ = false := by decide
theorem test_line_index_too_large : Line.wellFormed ⟨.HLD, [.number 8, .number 0]⟩ = false := by decide
theorem test_line_index_quoted : Line.wellFormed ⟨.HRD, [.quoted 'A']⟩ = false := by decide
theorem test_line_crc_byte : Line.wellFormed ⟨.CRC, [.number 0, .number 256]⟩ = false := by decide
theorem test_line_lrc_count : Line.wellFormed ⟨.LRC, [.number 1, .number 2, .number 3]⟩ = false := by decide
theorem test_line_hload_count : Line.wellFormed ⟨.HLOAD, [.number 1]⟩ = false := by decide
theorem test_line_mkhdr_no_id : Line.wellFormed ⟨.MKHDR, []⟩ = false := by decide
theorem test_line_chkframe_short : Line.wellFormed ⟨.CHKFRAME, [.number 1]⟩ = false := by decide
theorem test_line_index_five_accepted : Line.wellFormed ⟨.HLD, [.number 5, .number 255]⟩ = true := by decide

/-! ### Decoding: words written out bit by bit from R60, R61, R63 (op, rsv, idx, imm8) -/

theorem test_decode_nop : decode 0b0000_0_000_00000000 = .ok .nop := by decide
theorem test_decode_crcinit : decode 0b0001_0_000_00000000 = .ok .crcinit := by decide
theorem test_decode_crcb : decode 0b0010_0_000_00110000 = .ok (.crcb 0x30) := by decide
theorem test_decode_crcrd : decode 0b0011_0_000_00000000 = .ok .crcrd := by decide
theorem test_decode_cntrd : decode 0b0100_0_000_00000000 = .ok .cntrd := by decide
theorem test_decode_lrcrd : decode 0b0101_0_000_00000000 = .ok .lrcrd := by decide
theorem test_decode_hclr : decode 0b1000_0_000_00000000 = .ok .hclr := by decide
theorem test_decode_hld : decode 0b1001_0_010_01100100 = .ok (.hld 2 0x64) := by decide
theorem test_decode_hrd : decode 0b1010_0_100_00000000 = .ok (.hrd 4) := by decide
theorem test_decode_hbuild : decode 0b1011_0_000_11111111 = .ok (.hbuild 0xFF) := by decide
theorem test_decode_hvalid : decode 0b1100_0_000_00000000 = .ok .hvalid := by decide
theorem test_decode_pvalid : decode 0b1101_0_000_00000000 = .ok .pvalid := by decide

/-- 95_test_vectors.md 2.4: the illegal rows, by the reason of R69. -/
theorem test_decode_reserved_bit : decode 0x9D00 = .error .reservedBitSet := by decide
theorem test_decode_reserved_opcode : decode 0x6000 = .error .reservedOpcode := by decide
theorem test_decode_idx_in_format_D : decode 0x2134 = .error .fieldNotZero := by decide
theorem test_decode_imm8_in_format_X : decode 0xA005 = .error .fieldNotZero := by decide
theorem test_table_word : decodeTableWord 16 0x97FF = some (.hld 7 0xFF) := by decide

/-! ### The pure functions (95_test_vectors.md 2.1, 2.2, 2.3) -/

theorem test_lrc_wraps : lrc 0xFF 0xFF 0xFF 0xFF = 0x04 ∧ lrc 0 0 0 0 = 0x00 := by decide
theorem test_lrc_p6 : lrc 0x14 0x64 0x12 0x34 = 0x42 := by decide
theorem test_crc_step : crcStep 0x1234 0x56 = 0x3C40 ∧ crcStep 0xFFFF 0x00 = 0xE1F0 := by
  decide +kernel
theorem test_crc_step_table : crcStepTable 0x1234 0x56 = 0x3C40 := by decide +kernel
theorem test_crc_check_string :
    crc [0x31, 0x32, 0x33, 0x34, 0x35, 0x36, 0x37, 0x38, 0x39] = 0x29B1 := by decide +kernel
theorem test_crc_0123456 : crc [0x30, 0x31, 0x32, 0x33, 0x34, 0x35, 0x36] = 0x88A7 := by
  decide +kernel
theorem test_crc_p2 : crc [1, 2, 3, 4, 5, 6, 7, 8] = 0x4792 := by decide +kernel
theorem test_build : build 0x01 [0x14] = some p1 := by decide +kernel
theorem test_frame_valid : frameValid [0x06, 0x01, 0x01, 0x45, 0xB3, 0x14] = some true := by
  decide +kernel

/-! ### The commands (95_test_vectors.md 2.5, 2.6, 2.7), each one step -/

theorem test_nop : stepped (given 0xB345 1 p1 0x0000) = gives 0xB345 1 p1 ⟨.ok, 0⟩ := by decide +kernel
theorem test_crcinit :
    stepped (given 0x4792 8 p1 0x1000) = gives 0xFFFF 0 p1 ⟨.ok, 0⟩ := by decide +kernel
theorem test_crcb_reaches_256 :
    stepped (given 0xE6DC 255 p1 0x2000) = gives 0x41E8 256 p1 ⟨.ok, 0⟩ := by decide +kernel
theorem test_crcb_saturates :
    stepped (given 0x41E8 256 p1 0x2000) = gives 0xB0E5 256 p1 ⟨.ok, 0⟩ := by decide +kernel
theorem test_crcrd : stepped (given 0xB345 1 p1 0x3000) = gives 0xB345 1 p1 ⟨.ok, 0xB345⟩ := by
  decide +kernel
theorem test_cntrd : stepped (given 0 256 p1 0x4000) = gives 0 256 p1 ⟨.ok, 0x0100⟩ := by decide +kernel
theorem test_lrcrd : stepped (given 0 0 ⟨0x01, 0x14, 0x64, 0x12, 0x34⟩ 0x5000) =
    gives 0 0 ⟨0x01, 0x14, 0x64, 0x12, 0x34⟩ ⟨.ok, 0x0042⟩ := by decide +kernel
theorem test_hclr : stepped (given 0xB345 1 p1 0x8000) = gives 0xB345 1 h0 ⟨.ok, 0⟩ := by decide +kernel
theorem test_hld_last : stepped (given 0 0 h0 0x94FF) =
    gives 0 0 ⟨0x01, 0, 0, 0, 0xFF⟩ ⟨.ok, 0⟩ := by decide +kernel
theorem test_hld_badidx : stepped (given 0 0 p1 0x95AA) = gives 0 0 p1 ⟨.badIdx, 0⟩ := by decide +kernel
theorem test_hrd_last : stepped (given 0 0 p1 0xA400) = gives 0 0 p1 ⟨.ok, 0x00B3⟩ := by decide +kernel
theorem test_hrd_badidx : stepped (given 0 0 p1 0xA600) = gives 0 0 p1 ⟨.badIdx, 0⟩ := by decide +kernel
theorem test_hbuild_255 : stepped (given 0xE6DC 255 h0 0xB007) =
    gives 0xE6DC 255 ⟨0x38, 0x07, 0xFF, 0xDC, 0xE6⟩ ⟨.ok, 0⟩ := by decide +kernel
theorem test_hbuild_lenovf : stepped (given 0x41E8 256 p1 0xB007) =
    gives 0x41E8 256 p1 ⟨.lenOvf, 0⟩ := by decide +kernel
theorem test_hvalid_true : stepped (given 0 0 p1 0xC000) = gives 0 0 p1 ⟨.ok, 1⟩ := by decide +kernel
theorem test_hvalid_empty : stepped (given 0 0 h0 0xC000) = gives 0 0 h0 ⟨.ok, 0⟩ := by decide +kernel
theorem test_pvalid_true :
    stepped (given 0xB345 1 ⟨0, 0, 0x01, 0x45, 0xB3⟩ 0xD000) =
      gives 0xB345 1 ⟨0, 0, 0x01, 0x45, 0xB3⟩ ⟨.ok, 1⟩ := by decide +kernel
theorem test_pvalid_count_does_not_wrap :
    stepped (given 0x41E8 256 ⟨0, 0, 0, 0xE8, 0x41⟩ 0xD000) =
      gives 0x41E8 256 ⟨0, 0, 0, 0xE8, 0x41⟩ ⟨.ok, 0⟩ := by decide +kernel
theorem test_illegal_before_lenovf : stepped (given 0x41E8 256 p1 0xB107) =
    gives 0x41E8 256 p1 ⟨.illegal, 0⟩ := by decide +kernel
theorem test_reset_event : stepped ⟨⟨0xB345, 1, p1⟩, [.reset], []⟩ =
    some ⟨⟨0xFFFF, 0, h0⟩, [], []⟩ := by decide +kernel
theorem test_response_word : responseWord ⟨.lenOvf, 0x0000⟩ = 0x30000 := by decide
theorem test_fetch_word : stepped (State.reset.withFetchWord 16 0xA000) =
    gives 0xFFFF 0 h0 ⟨.ok, 0x0001⟩ := by decide +kernel

/-! ### The assembler (R70, R71, R72; program P6's first pseudo-instruction) -/

theorem test_assemble : assemble "CRCB 0x14 ; one byte\n\nHLD 2, 100".toList =
    .ok [0x2014, 0x9264] := by decide +kernel
theorem test_assemble_pseudo : assemble "CRC 'A', 0x42".toList =
    .ok [0x1000, 0x2041, 0x2042, 0x3000] := by decide +kernel
theorem test_assemble_range : assemble "HLD 8, 0".toList = .error .illFormed := by decide +kernel

/-! ### Witnesses: the hypotheses of each statement are met together -/

theorem witness_EncodeOfDecode : decode 0x9264 = .ok (.hld 2 0x64) := by decide

theorem witness_DecoderFollowsTheOpcodeMap :
    opcodeRow (.hld 0 0) ∈ opcodeMap ∧
      (0x97FF : CommandWord) &&& (opcodeRow (.hld 0 0)).mask = (opcodeRow (.hld 0 0)).pattern := by decide

theorem witness_ReservedOpcodesAreIllegal :
    (given 0 0 h0 0x6000).inputs = .command 0x6000 :: [] ∧
      (0x6000 : CommandWord).extractLsb 15 12 ∈ [0x6#4, 0x7#4, 0xE#4, 0xF#4] ∧
      (0xFFFF : CommandWord).extractLsb 15 12 ∈ [0x6#4, 0x7#4, 0xE#4, 0xF#4] := by decide

theorem witness_NonzeroReservedFieldsAreIllegal :
    (given 0 0 h0 0x1800).inputs = .command 0x1800 :: [] ∧
      (0x1800 : CommandWord).extractLsb 11 11 ≠ 0#1 ∧
      ((0x2134 : CommandWord).extractLsb 15 12 = 0x2#4 ∧
        (0x2134 : CommandWord).extractLsb 10 8 ≠ 0#3) ∧
      ((0xA005 : CommandWord).extractLsb 15 12 = 0xA#4 ∧
        (0xA005 : CommandWord).extractLsb 7 0 ≠ 0#8) := by decide

theorem witness_OnlyTheZeroWordIsNop : decode 0x0000 = .ok .nop := by decide

theorem witness_OneResponseForEveryWord : (given 0 0 h0 0x3000).inputs = .command 0x3000 :: [] := rfl

/-- `HLD 5, 0xAA` ends in an error response. -/
theorem witness_ErrorResponsesChangeNoState :
    (given 0 0 p1 0x95AA).inputs = .command 0x95AA :: [] ∧
      step (given 0 0 p1 0x95AA) = .next ⟨⟨0, 0, p1⟩, [], [⟨.badIdx, 0⟩]⟩ ∧
      (⟨.badIdx, 0⟩ : Response).status ≠ .ok := ⟨rfl, rfl, by decide⟩

/-- Each of the three causes occurs. -/
theorem witness_ErrorCausesOfEveryWord :
    step (given 0 256 p1 0xB807) = .next ⟨⟨0, 256, p1⟩, [], [⟨.illegal, 0⟩]⟩ ∧
      step (given 0 256 p1 0xA500) = .next ⟨⟨0, 256, p1⟩, [], [⟨.badIdx, 0⟩]⟩ ∧
      step (given 0 256 p1 0xB007) = .next ⟨⟨0, 256, p1⟩, [], [⟨.lenOvf, 0⟩]⟩ := ⟨rfl, rfl, rfl⟩

theorem witness_StepRunsTheDecodedCommand :
    (given 0 0 h0 0xC000).inputs = .command 0xC000 :: [] ∧ decode 0xC000 = .ok .hvalid := ⟨rfl, by decide⟩

theorem witness_StepWaitsForInput : State.reset.inputs = [] := rfl

theorem witness_CommandListIsAFold :
    (⟨Block.atReset, [.command 0x2014, .command 0xB001, .reset], []⟩ : State).inputs =
      [0x2014, 0xB001].map .command ++ [.reset] := rfl

/-- An illegal word is presented. -/
theorem witness_NopChangesNothing :
    (given 0xB345 1 p1 0x6000).inputs = .command 0x6000 :: [] ∧ ∀ i, decode 0x6000 ≠ .ok i :=
  ⟨rfl, fun _ h => nomatch h⟩

/-- Also the witness that `CRCINIT` does lower the counter. -/
theorem witness_CrcinitStartsANewComputation :
    CountInRange ⟨0x41E8, 256, h0⟩ ∧
      exec .crcinit ⟨⟨0x41E8, 256, h0⟩, [], []⟩ = .next ⟨⟨0xFFFF, 0, h0⟩, [], [⟨.ok, 0⟩]⟩ ∧
      (0 : Count) < 256 := ⟨by decide, rfl, by decide⟩

theorem witness_CrcbAbsorbsOneByte :
    (0xFFFF : CrcValue) = crc [] ∧ ∃ t, exec (.crcb 0x30) State.reset = .next t :=
  ⟨by decide, _, rfl⟩

theorem witness_CrcrdReadsTheRegister :
    EngineHolds [0x14] ⟨0xB345, 1, p1⟩ ∧ ∃ t, exec .crcinit (given 0x4792 8 p1 0) = .next t :=
  ⟨by decide +kernel, _, rfl⟩

theorem witness_CntrdReadsTheCounter : CountInRange ⟨0, 256, h0⟩ := by decide

theorem witness_HclrMakesTheEmptyHeader : EngineTracks ⟨0xB345, 1, p1⟩ :=
  ⟨[0x14], by decide +kernel⟩

/-- The boundary of `PVALID` after `HCLR`: both registers zero, a state no run reaches. -/
theorem witness_HclrMakesTheEmptyHeader_zero : packetValid emptyHeader 0 0 = true := by decide

theorem witness_HldLoadsOneHeaderByte : (4 : HdrIndex).toNat ≤ 4 ∧ 5 ≤ (5 : HdrIndex).toNat := by decide

theorem witness_HrdReadsOneHeaderByte : (0 : HdrIndex).toNat ≤ 4 ∧ 5 ≤ (7 : HdrIndex).toNat := by decide

theorem witness_HeaderSpaceMap : (4 : HdrIndex).toNat ≤ 4 ∧ 5 ≤ (5 : HdrIndex).toNat := by decide

theorem witness_HbuildConstructsTheHeader :
    (given 0xE6DC 255 h0 0xB007).block.cnt.toNat ≤ 255 ∧
      (given 0x41E8 256 h0 0xB007).block.cnt = 256 ∧ EngineHolds [0x14] ⟨0xB345, 1, h0⟩ := by
  decide +kernel

theorem witness_HvalidJudgesTheHeader : ∃ t, exec .hclr (given 0 0 p1 0) = .next t := ⟨_, rfl⟩

theorem witness_PvalidJudgesThePayload :
    EngineHolds [0x14] ⟨0xB345, 1, p1⟩ ∧ (given 0x41E8 256 p1 0).block.cnt = 256 := by decide +kernel

theorem witness_OnlyHeaderCommandsWriteTheHeader :
    (∃ t, exec (.crcb 0x14) State.reset = .next t) ∧ Instr.crcb 0x14 ≠ .hclr ∧
      (∀ a v, Instr.crcb 0x14 ≠ .hld a v) ∧ ∀ v, Instr.crcb 0x14 ≠ .hbuild v :=
  ⟨⟨_, rfl⟩, by decide, fun _ _ h => Instr.noConfusion h, fun _ h => Instr.noConfusion h⟩

theorem witness_OnlyEngineCommandsWriteTheEngine :
    (∃ t, exec .hclr State.reset = .next t) ∧ Instr.hclr ≠ .crcinit ∧ ∀ v, Instr.hclr ≠ .crcb v :=
  ⟨⟨_, rfl⟩, by decide, fun _ h => Instr.noConfusion h⟩

theorem witness_ReadsMayBeRepeatedOrDropped :
    Instr.crcrd ∈ [Instr.nop, .crcrd, .cntrd, .lrcrd, .hvalid, .pvalid] ∧ ∃ a, Instr.hrd 7 = .hrd a :=
  ⟨by decide, 7, rfl⟩

theorem witness_ResetEventFromAnyState :
    (⟨⟨0xB345, 1, p1⟩, [.reset], []⟩ : State).inputs = .reset :: [] := rfl

theorem witness_LrcEquivalentForms :
    [4, 3, 2, 1] ∈ [(1 : Byte), 2, 3, 4].permutations := List.mem_permutations.2 (by decide)

theorem witness_OneChangedByteChangesTheCrc : (0x14 : Byte) ≠ 0x15 := by decide

theorem witness_BuiltHeadersAreValid :
    (List.replicate 255 (0 : Byte)).length ≤ 255 ∧ 255 < (List.replicate 256 (0 : Byte)).length := by
  rw [List.length_replicate, List.length_replicate]; decide

theorem witness_OneChangedHeaderByteIsCaught :
    headerValid p1 = true ∧ memWrite p1 2 0x00 = some ⟨0x06, 0x01, 0x00, 0x45, 0xB3⟩ ∧
      memRead p1 2 ≠ some 0x00 := by decide

theorem witness_OneChangedPayloadByteIsCaught :
    [0x14, 0x00].length ≠ p1.payloadLength.toNat ∧
      isPacketValid p1 ([] ++ 0x14 :: []) = true ∧ (0x14 : Byte) ≠ 0x15 := by decide +kernel

theorem witness_EveryStepKeepsTheCountInRange :
    CountInRange (given 0x41E8 256 h0 0x2000).block ∧
      ∃ t, step (given 0x41E8 256 h0 0x2000) = .next t := ⟨by decide, _, rfl⟩

theorem witness_EveryStepKeepsTheEngineTied :
    EngineTracks (given 0xB345 1 h0 0x2000).block ∧
      ∃ t, step (given 0xB345 1 h0 0x2000) = .next t := ⟨⟨[0x14], by decide +kernel⟩, _, rfl⟩

theorem witness_EngineFollowsTheAbsorbedPayload :
    (given 0xB345 1 h0 0x2000).inputs = .command 0x2000 :: [] ∧
      EngineHolds [0x14] (given 0xB345 1 h0 0x2000).block ∧
      ∃ t, step (given 0xB345 1 h0 0x2000) = .next t := ⟨rfl, by decide +kernel, _, rfl⟩

/-- `CRCINIT`, then `CRCB`, an illegal word, `NOP`, `CRCB`; and reset in its place. -/
theorem witness_StreamingComputesTheCrc :
    restartsEngine (.command 0x1000) = true ∧ restartsEngine .reset = true ∧
      (∀ e ∈ [HostEvent.command 0x2014, .command 0x6000, .command 0x0000, .command 0x2015],
        restartsEngine e = false) ∧
      crcbBytes [.command 0x2014, .command 0x6000, .command 0x0000, .command 0x2015] =
        [0x14, 0x15] := by decide

theorem witness_CrcPseudoReturnsTheCrc : State.reset.inputs = [] := rfl

theorem witness_LrcPseudoReturnsTheLrc : State.reset.inputs = [] := rfl

theorem witness_HloadThenHreadGivesTheBytes : State.reset.inputs = [] := rfl

theorem witness_MkhdrBuildsAValidHeader : State.reset.inputs = [] ∧
    (List.replicate 255 (0 : Byte)).length ≤ 255 ∧ 255 < (List.replicate 256 (0 : Byte)).length := by
  rw [List.length_replicate, List.length_replicate]; decide

theorem witness_ChkpktAnswersIsPacketValid : State.reset.inputs = [] := rfl

theorem witness_ChkframeAnswersBothPredicates : State.reset.inputs = [] := rfl

/-- Operands at the ends of their ranges, 255 written in both bases and `A` quoted; operands outside
them; the texts of the last clauses. -/
theorem witness_AssemblerRangesAndWords :
    (IsByteOperand (.number 255) ∧ IsByteOperand (.quoted 'A') ∧ IsIndexOperand (.number 7)) ∧
      (WrittenAs (.number 255) "255".toList ∧ WrittenAs (.number 255) "0xfF".toList ∧
        WrittenAs (.quoted 'A') ['\'', 'A', '\'']) ∧
      (¬ IsByteOperand (.number 256) ∧ ¬ IsByteOperand (.quoted 'é') ∧ ¬ IsIndexOperand (.number 8)) ∧
      '\n' ∉ "NOP".toList ∧ assembleLine "NOP".toList = .ok [.nop] ∧
      assemble "HCLR".toList = .ok [0x8000] := by
  refine ⟨⟨.inl ⟨255, by decide, rfl⟩, .inr ⟨'A', by decide, rfl⟩, 7, by decide, rfl⟩,
    ⟨.inl ⟨[2, 5, 5], ?_, by decide⟩, .inr ⟨['f', 'F'], rfl, [15, 15], ?_, by decide⟩, rfl⟩,
    by simp [IsByteOperand, IsIndexOperand], by decide, by decide +kernel, by decide +kernel⟩
  · exact .cons (.inl rfl) (.cons (.inl rfl) (.cons (.inl rfl) .nil))
  · exact .cons (.inl rfl) (.cons (.inr rfl) .nil)

end Sys2Proof.Tests
end

namespace Sys2Proof

/-! ### Legal words: a word the decoder accepts is the word of its command

The decoder reads the opcode and the format's fields; with the reserved bit zero these are all the
bits of the word, so what it accepts is an encoding, and facts about the fields of legal words
are facts about the fields of `encode`. -/

/-- The opcodes of format N (30_encoding.md R61, R63). -/
def opcodesN : List (BitVec 4) := [0x0, 0x1, 0x3, 0x4, 0x5, 0x8, 0xC, 0xD]

/-- The opcodes of format D (R61, R63). -/
def opcodesD : List (BitVec 4) := [0x2, 0xB]

/-- The opcodes of format X (R61, R63). -/
def opcodesX : List (BitVec 4) := [0xA]

/-- The opcodes of format XD (R61, R63). -/
def opcodesXD : List (BitVec 4) := [0x9]

theorem assembleWord_of_fields {w : CommandWord} {o : BitVec 4} {idx : HdrIndex} {v : Byte}
    (hr : rsvField w = 0) (ho : (opField w).toNat = o.toNat) (hi : idxField w = idx)
    (hv : imm8Field w = v) : assembleWord o idx v = w := by
  rw [← BitVec.eq_of_toNat_eq ho, ← hi, ← hv, assembleWord_fields w hr]

theorem decodeN_word {w : CommandWord} {o : BitVec 4} {i j : Instr} (hr : rsvField w = 0)
    (ho : (opField w).toNat = o.toNat) (h : decodeN w i = .ok j) :
    i = j ∧ assembleWord o 0 0 = w := by
  obtain ⟨hj, hi, hv⟩ := decodeN_ok h
  exact ⟨hj.symm, assembleWord_of_fields hr ho hi hv⟩

theorem decodeD_word {w : CommandWord} {o : BitVec 4} {f : Byte → Instr} {j : Instr}
    (hr : rsvField w = 0) (ho : (opField w).toNat = o.toNat) (h : decodeD w f = .ok j) :
    ∃ v, f v = j ∧ assembleWord o 0 v = w := by
  obtain ⟨hj, hi⟩ := decodeD_ok h
  exact ⟨_, hj.symm, assembleWord_of_fields hr ho hi rfl⟩

theorem decodeX_word {w : CommandWord} {o : BitVec 4} {f : HdrIndex → Instr} {j : Instr}
    (hr : rsvField w = 0) (ho : (opField w).toNat = o.toNat) (h : decodeX w f = .ok j) :
    ∃ idx, f idx = j ∧ assembleWord o idx 0 = w := by
  obtain ⟨hj, hv⟩ := decodeX_ok h
  exact ⟨_, hj.symm, assembleWord_of_fields hr ho rfl hv⟩

theorem decodeXD_word {w : CommandWord} {o : BitVec 4} {f : HdrIndex → Byte → Instr} {j : Instr}
    (hr : rsvField w = 0) (ho : (opField w).toNat = o.toNat) (h : decodeXD w f = .ok j) :
    ∃ idx v, f idx v = j ∧ assembleWord o idx v = w :=
  ⟨_, _, (decodeXD_ok h).symm, assembleWord_of_fields hr ho rfl rfl⟩

/-- One case per row of the opcode map (R63), closed by the lemma of the row's format. -/
theorem encode_eq_of_decode {w : CommandWord} {i : Instr} (h : decode w = .ok i) :
    encode i = w := by
  by_cases hr : rsvField w = 0
  case neg => rw [decode_reservedBit hr] at h; cases h
  case pos =>
    rw [decode, if_neg (not_not.2 hr)] at h
    split at h
    case h_1 ho => obtain ⟨rfl, hw⟩ := decodeN_word (o := 0x0) hr ho h; exact hw
    case h_2 ho => obtain ⟨rfl, hw⟩ := decodeN_word (o := 0x1) hr ho h; exact hw
    case h_3 ho => obtain ⟨v, rfl, hw⟩ := decodeD_word (o := 0x2) hr ho h; exact hw
    case h_4 ho => obtain ⟨rfl, hw⟩ := decodeN_word (o := 0x3) hr ho h; exact hw
    case h_5 ho => obtain ⟨rfl, hw⟩ := decodeN_word (o := 0x4) hr ho h; exact hw
    case h_6 ho => obtain ⟨rfl, hw⟩ := decodeN_word (o := 0x5) hr ho h; exact hw
    case h_7 ho => obtain ⟨rfl, hw⟩ := decodeN_word (o := 0x8) hr ho h; exact hw
    case h_8 ho => obtain ⟨idx, v, rfl, hw⟩ := decodeXD_word (o := 0x9) hr ho h; exact hw
    case h_9 ho => obtain ⟨idx, rfl, hw⟩ := decodeX_word (o := 0xA) hr ho h; exact hw
    case h_10 ho => obtain ⟨v, rfl, hw⟩ := decodeD_word (o := 0xB) hr ho h; exact hw
    case h_11 ho => obtain ⟨rfl, hw⟩ := decodeN_word (o := 0xC) hr ho h; exact hw
    case h_12 ho => obtain ⟨rfl, hw⟩ := decodeN_word (o := 0xD) hr ho h; exact hw
    case h_13 => cases h

theorem decode_error_of_ne_encode {w : CommandWord} (h : ∀ i, encode i ≠ w) :
    ∃ e, decode w = .error e := by
  cases hd : decode w with
  | error e => exact ⟨e, rfl⟩
  | ok i => exact absurd (encode_eq_of_decode hd) (h i)

/-! ### The fields of the word of a command -/

theorem opField_encode_mem (i : Instr) :
    opField (encode i) ∈ opcodesN ++ opcodesD ++ opcodesX ++ opcodesXD := by
  cases i <;> simp [encode, opcodesN, opcodesD, opcodesX, opcodesXD]

theorem rsvField_encode (i : Instr) : rsvField (encode i) = 0 := by
  cases i <;> exact rsvField_assembleWord _ _ _

/-- Formats N and D leave `idx` zero; the commands of formats X and XD have other opcodes. -/
theorem idxField_encode {i : Instr} (h : opField (encode i) ∈ opcodesN ++ opcodesD) :
    idxField (encode i) = 0 := by
  cases i with
  | hld | hrd => simp [encode, opcodesN, opcodesD] at h
  | _ => exact idxField_assembleWord _ _ _

/-- Formats N and X leave `imm8` zero; the commands of formats D and XD have other opcodes. -/
theorem imm8Field_encode {i : Instr} (h : opField (encode i) ∈ opcodesN ++ opcodesX) :
    imm8Field (encode i) = 0 := by
  cases i with
  | crcb | hbuild | hld => simp [encode, opcodesN, opcodesX] at h
  | _ => exact imm8Field_assembleWord _ _ _

end Sys2Proof

namespace Sys2Proof.Machine

/-! ### The step on a presented word -/

theorem step_command_ok {w : CommandWord} {i : Instr} (h : decode w = .ok i) (b : Block)
    (rest : List HostEvent) (rs : List Response) :
    step ⟨b, .command w :: rest, rs⟩ = exec i ⟨b, rest, rs⟩ := by
  simp only [step, nextInput_cons, presentedCommand_ok h]

theorem step_command_error {w : CommandWord} {e : DecodeError} (h : decode w = .error e) (b : Block)
    (rest : List HostEvent) (rs : List Response) :
    step ⟨b, .command w :: rest, rs⟩ = .next ⟨b, rest, rs ++ [⟨.illegal, 0x0000⟩]⟩ := by
  simp only [step, nextInput_cons, presentedCommand_error h]
  rfl

theorem step_of_ne_encode {s : State} {w : CommandWord} {rest : List HostEvent}
    (hs : s.inputs = .command w :: rest) (h : ∀ i, encode i ≠ w) :
    step s = .next { s with inputs := rest, responses := s.responses ++ [⟨.illegal, 0x0000⟩] } := by
  obtain ⟨e, he⟩ := decode_error_of_ne_encode h
  obtain ⟨b, _, rs⟩ := s
  subst hs
  exact step_command_error he b rest rs

/-- Settles O5: the opcode of a legal word is one of the twelve that the formats have. -/
theorem reservedOpcodesAreIllegal : Obligations.ReservedOpcodesAreIllegal := by
  intro s w rest hs hop
  refine step_of_ne_encode hs fun i hi => ?_
  subst hi
  have reserved_not_defined : ∀ o ∈ [0x6#4, 0x7#4, 0xE#4, 0xF#4],
      o ∉ opcodesN ++ opcodesD ++ opcodesX ++ opcodesXD := by decide
  exact reserved_not_defined _ hop (opField_encode_mem i)

/-- Settles O6: in a legal word the fields its format leaves without an operand are zero. -/
theorem nonzeroReservedFieldsAreIllegal : Obligations.NonzeroReservedFieldsAreIllegal := by
  intro s w rest hs hfields
  refine step_of_ne_encode hs fun i hi => ?_
  subst hi
  obtain hrsv | ⟨hop, hidx⟩ | ⟨hop, himm⟩ := hfields
  · exact hrsv (rsvField_encode i)
  · exact hidx (idxField_encode hop)
  · exact himm (imm8Field_encode hop)

/-! ### No command but `NOP` does what `NOP` does -/

/-- The command answers `(OK, 0x0000)` and leaves the block unchanged, whatever the block. -/
def ActsAsNop (i : Instr) : Prop :=
  ∀ b : Block, exec i ⟨b, [], []⟩ = .next ⟨b, [], [⟨.ok, 0x0000⟩]⟩

/-- A block on which every read answers a nonzero datum, and which every write other than `HLD` and
`HBUILD` changes: its header is valid and agrees with its `CRC` and `CNT`. -/
def telltaleBlock : Block := ⟨0x0101, 1, ⟨0xFC, 0x01, 0x01, 0x01, 0x01⟩⟩

theorem not_actsAsNop_of_exec {i : Instr} {b : Block} {t : State}
    (he : exec i ⟨b, [], []⟩ = .next t) (ht : t ≠ ⟨b, [], [⟨.ok, 0x0000⟩]⟩) : ¬ ActsAsNop i :=
  fun h => ht (Host.Outcome.next.inj (he.symm.trans (h b)))

/-- The count after `CRCB` differs from the count of the block, for every byte. -/
theorem not_actsAsNop_crcb (v : Byte) : ¬ ActsAsNop (.crcb v) := by
  refine not_actsAsNop_of_exec (b := telltaleBlock) rfl fun h => ?_
  have hcnt := congrArg (fun t => t.block.cnt) h
  exact absurd hcnt (by decide : countUp 1 ≠ 1)

/-- An `HLD` that acts as `NOP` names an address of the header space (else it answers `BADIDX`), and
the byte it writes is there already, in every block. -/
theorem memRead_of_hld_actsAsNop {idx : HdrIndex} {v : Byte} (h : ActsAsNop (.hld idx v))
    (b : Block) : memRead b.hdr idx = some v := by
  have hb : execHld idx v ⟨b, [], []⟩ = .next ⟨b, [], [⟨.ok, 0x0000⟩]⟩ := h b
  unfold execHld at hb
  split at hb
  case h_1 => simp [raise, answer, errorStatus] at hb
  case h_2 hdr hw =>
    have hhdr : hdr = b.hdr := congrArg (fun t => t.block.hdr) (Host.Outcome.next.inj hb)
    exact hhdr ▸ memRead_memWrite_same hw

/-- The byte at an address is not the same in every header. -/
theorem not_actsAsNop_hld (idx : HdrIndex) (v : Byte) : ¬ ActsAsNop (.hld idx v) := by
  intro h
  have hreset : memRead emptyHeader idx = some v := memRead_of_hld_actsAsNop h Block.atReset
  have htelltale : memRead telltaleBlock.hdr idx = some v := memRead_of_hld_actsAsNop h telltaleBlock
  have disagree : ∀ a : HdrIndex, memRead emptyHeader a = memRead telltaleBlock.hdr a →
      memRead emptyHeader a = none := by decide
  have habsent := disagree idx (hreset.trans htelltale.symm)
  rw [hreset] at habsent
  cases habsent

/-- Above 255 bytes `HBUILD` answers `LENOVF`. -/
theorem not_actsAsNop_hbuild (v : Byte) : ¬ ActsAsNop (.hbuild v) :=
  not_actsAsNop_of_exec (b := ⟨0, 256, emptyHeader⟩) rfl (by decide)

theorem not_actsAsNop_hrd (idx : HdrIndex) : ¬ ActsAsNop (.hrd idx) := by
  rcases hdrIndex_cases idx with rfl | rfl | rfl | rfl | rfl | rfl | rfl | rfl <;>
    exact not_actsAsNop_of_exec (b := telltaleBlock) rfl (by decide)

theorem actsAsNop_iff (i : Instr) : ActsAsNop i ↔ i = .nop := by
  refine ⟨fun h => ?_, fun h => h ▸ fun _ => rfl⟩
  cases i with
  | nop => rfl
  | crcb v => exact absurd h (not_actsAsNop_crcb v)
  | hld idx v => exact absurd h (not_actsAsNop_hld idx v)
  | hrd idx => exact absurd h (not_actsAsNop_hrd idx)
  | hbuild v => exact absurd h (not_actsAsNop_hbuild v)
  | crcinit | crcrd | cntrd | lrcrd | hclr | hvalid | pvalid =>
    exact absurd h (not_actsAsNop_of_exec (b := telltaleBlock) rfl (by decide))

theorem decode_eq_nop_iff (w : CommandWord) : decode w = .ok .nop ↔ w = 0x0000 := by
  constructor
  · intro h
    exact (encode_eq_of_decode h).symm
  · rintro rfl
    decide

/-- The step on any other word than zero differs from `NOP`'s in some state. -/
theorem eq_zero_of_step_actsAsNop {w : CommandWord}
    (h : ∀ b : Block, step ⟨b, [.command w], []⟩ = .next ⟨b, [], [⟨.ok, 0x0000⟩]⟩) :
    w = 0x0000 := by
  cases hd : decode w with
  | error e =>
    have herr := (step_command_error hd Block.atReset [] []).symm.trans (h Block.atReset)
    simp at herr
  | ok i =>
    have hnop : i = .nop := (actsAsNop_iff i).1 fun b =>
      (step_command_ok hd b [] []).symm.trans (h b)
    exact (decode_eq_nop_iff w).1 (hnop ▸ hd)

/-- Settles O7: a word that is no command differs in the status of its response, and each command
but `NOP` has a block on which it differs (`actsAsNop_iff`). -/
theorem onlyTheZeroWordIsNop : Obligations.OnlyTheZeroWordIsNop := by
  refine ⟨fun w => ⟨fun h => eq_zero_of_step_actsAsNop fun b => h b [] [], ?_⟩,
    decode_eq_nop_iff, ?_⟩
  · rintro rfl b rest rs
    exact step_command_ok ((decode_eq_nop_iff _).2 rfl) b rest rs
  · intro b rest rs
    have hones : decode 0xFFFF = .error .reservedBitSet := by decide
    exact step_command_error hones b rest rs

/-! ### One response for every word -/

/-- Every command's meaning is one change of the block and one response; both are fixed by the block,
whatever is still to be presented and whatever was answered before. -/
theorem exec_answers_once (i : Instr) (b : Block) : ∃ (b' : Block) (r : Response),
    ∀ (rest : List HostEvent) (rs : List Response),
      exec i ⟨b, rest, rs⟩ = .next ⟨b', rest, rs ++ [r]⟩ := by
  cases i with
  | nop => exact ⟨b, ⟨.ok, 0⟩, fun _ _ => rfl⟩
  | crcinit => exact ⟨{ b with crc := Config.crcInit, cnt := 0 }, ⟨.ok, 0⟩, fun _ _ => rfl⟩
  | crcb v =>
    exact ⟨{ b with crc := crcStep b.crc v, cnt := countUp b.cnt }, ⟨.ok, 0⟩, fun _ _ => rfl⟩
  | crcrd => exact ⟨b, ⟨.ok, b.crc⟩, fun _ _ => rfl⟩
  | cntrd => exact ⟨b, ⟨.ok, countDatum b.cnt⟩, fun _ _ => rfl⟩
  | lrcrd => exact ⟨b, ⟨.ok, byteDatum (lrc b.hdr.packetId b.hdr.payloadLength
      b.hdr.payloadChecksumLsb b.hdr.payloadChecksumMsb)⟩, fun _ _ => rfl⟩
  | hclr => exact ⟨{ b with hdr := emptyHeader }, ⟨.ok, 0⟩, fun _ _ => rfl⟩
  | hld idx v =>
    cases hw : memWrite b.hdr idx v with
    | none => exact ⟨b, ⟨.badIdx, 0⟩, fun _ _ => by simp only [exec, execHld, hw]; rfl⟩
    | some h =>
      exact ⟨{ b with hdr := h }, ⟨.ok, 0⟩, fun _ _ => by simp only [exec, execHld, hw]; rfl⟩
  | hrd idx =>
    cases hr : memRead b.hdr idx with
    | none => exact ⟨b, ⟨.badIdx, 0⟩, fun _ _ => by simp only [exec, execHrd, hr]; rfl⟩
    | some v => exact ⟨b, ⟨.ok, byteDatum v⟩, fun _ _ => by simp only [exec, execHrd, hr]; rfl⟩
  | hbuild id =>
    by_cases hc : b.cnt = 256
    · exact ⟨b, ⟨.lenOvf, 0⟩, fun _ _ => if_pos hc⟩
    · exact ⟨{ b with hdr := headerOf id (b.cnt.extractLsb' 0 8) b.crc }, ⟨.ok, 0⟩,
        fun _ _ => if_neg hc⟩
  | hvalid => exact ⟨b, ⟨.ok, boolDatum (headerValid b.hdr)⟩, fun _ _ => rfl⟩
  | pvalid => exact ⟨b, ⟨.ok, boolDatum (packetValid b.hdr b.crc b.cnt)⟩, fun _ _ => rfl⟩

/-- The same for every command word, legal or not: an illegal word leaves the block. -/
theorem step_command_answers_once (b : Block) (w : CommandWord) : ∃ p : Block × Response,
    ∀ (rest : List HostEvent) (rs : List Response),
      step ⟨b, .command w :: rest, rs⟩ = .next ⟨p.1, rest, rs ++ [p.2]⟩ := by
  cases hd : decode w with
  | error e => exact ⟨(b, ⟨.illegal, 0x0000⟩), step_command_error hd b⟩
  | ok i =>
    obtain ⟨b', r, h⟩ := exec_answers_once i b
    exact ⟨(b', r), fun rest rs => (step_command_ok hd b rest rs).trans (h rest rs)⟩

theorem responseWord_status (r : Response) :
    (responseWord r).extractLsb 19 16 = statusCode r.status :=
  BitVec.extractLsb'_append_eq_left

theorem responseWord_data (r : Response) : (responseWord r).extractLsb 15 0 = r.data :=
  BitVec.extractLsb'_append_eq_right

theorem statusCode_lt (t : Status) : (statusCode t).toNat < 4 := by
  cases t <;> decide

/-- Settles O9: the function of block and word is chosen from `step_command_answers_once`. -/
theorem oneResponseForEveryWord : Obligations.OneResponseForEveryWord := by
  refine ⟨?_, fun r => ⟨responseWord_status r, responseWord_data r⟩, rfl, rfl, rfl, rfl, fun r => ?_⟩
  · choose f hf using step_command_answers_once
    refine ⟨f, ?_⟩
    rintro ⟨b, _, rs⟩ w rest rfl
    exact hf b w rest rs
  · rw [responseWord_status]
    exact statusCode_lt r.status

end Sys2Proof.Machine

namespace Sys2Proof

/-! ### The word of `CRCB` -/

/-- The fields of a word as digits of its value (30_encoding.md R60). -/
theorem assembleWord_toNat (o : BitVec 4) (idx : HdrIndex) (v : Byte) :
    (assembleWord o idx v).toNat = 4096 * o.toNat + 256 * idx.toNat + v.toNat := by
  have hv : v.toNat < 2 ^ 8 := v.isLt
  have hidx : idx.toNat < 2 ^ 3 := idx.isLt
  have hrsv : (0#1).toNat < 2 ^ 1 := by decide
  simp only [assembleWord, BitVec.toNat_append]
  rw [← Nat.shiftLeft_add_eq_or_of_lt hv, ← Nat.shiftLeft_add_eq_or_of_lt hidx,
    ← Nat.shiftLeft_add_eq_or_of_lt hrsv]
  simp only [Nat.shiftLeft_eq, BitVec.toNat_ofNat]
  omega

theorem encode_crcb (v : Byte) : encode (.crcb v) = 0x2000 + v.zeroExtend 16 := by
  apply BitVec.eq_of_toNat_eq
  rw [encode, assembleWord_toNat]
  bv_omega

theorem decode_encode_crcb (v : Byte) : decode (encode (.crcb v)) = .ok (.crcb v) := by
  simp [encode, decode, decodeD]

end Sys2Proof

namespace Sys2Proof.Machine

/-! ### `crc` as a fold, `lrc` on numbers -/

theorem crc_nil : crc [] = 0xFFFF := crc_eq_crcFrom []

/-- One byte more is one step more. -/
theorem crc_append_singleton (p : List Byte) (b : Byte) : crc (p ++ [b]) = crcStep (crc p) b := by
  simp only [crc_eq_crcFrom, crcFrom_append, crcFrom_cons, crcFrom_nil]

/-- Settles O40: the final XOR is with zero, so `crc` is the fold itself. -/
theorem crcIsTheFoldOfSteps : Obligations.CrcIsTheFoldOfSteps :=
  ⟨crc_nil, crc_append_singleton, crc_eq_crcFrom⟩

theorem byteSum_toNat (a b c d : Byte) :
    (a + b + c + d).toNat = (a.toNat + b.toNat + c.toNat + d.toNat) % 256 := by
  simp only [BitVec.toNat_add, Nat.mod_add_mod]

/-- Settles O35: on numbers the byte sum is reduced once (`byteSum_toNat`), before the complement. -/
theorem lrcIsTheIncrementedComplement : Obligations.LrcIsTheIncrementedComplement := by
  intro a b c d
  rw [lrc, BitVec.toNat_add, BitVec.toNat_xor, byteSum_toNat]
  rfl

/-! ### What the engine's commands do -/

theorem exec_crcinit (s : State) : exec .crcinit s = .next
    { s with block := { s.block with crc := 0xFFFF, cnt := 0 },
             responses := s.responses ++ [⟨.ok, 0x0000⟩] } := rfl

theorem exec_crcb (v : Byte) (s : State) : exec (.crcb v) s = .next
    { s with block := { s.block with crc := crcStep s.block.crc v, cnt := countUp s.block.cnt },
             responses := s.responses ++ [⟨.ok, 0x0000⟩] } := rfl

theorem exec_crcrd (s : State) :
    exec .crcrd s = .next { s with responses := s.responses ++ [⟨.ok, s.block.crc⟩] } := rfl

theorem exec_cntrd (s : State) : exec .cntrd s =
    .next { s with responses := s.responses ++ [⟨.ok, countDatum s.block.cnt⟩] } := rfl

theorem exec_lrcrd (s : State) : exec .lrcrd s = .next (respond s (byteDatum (lrc
    s.block.hdr.packetId s.block.hdr.payloadLength s.block.hdr.payloadChecksumLsb
    s.block.hdr.payloadChecksumMsb))) := rfl

theorem exec_hvalid (s : State) :
    exec .hvalid s = .next (respond s (boolDatum (headerValid s.block.hdr))) := rfl

/-- What a command can do to `CRC` and `CNT` (10_state.md R20): `CRCINIT` restarts them, `CRCB` absorbs
its byte, and every other command keeps both. -/
theorem exec_engine_cases {i : Instr} {s t : State} (h : exec i s = .next t) :
    (i = .crcinit ∧ t.block.crc = 0xFFFF ∧ t.block.cnt = 0) ∨
    (∃ v, i = .crcb v ∧ t.block.crc = crcStep s.block.crc v ∧ t.block.cnt = countUp s.block.cnt) ∨
    (t.block.crc = s.block.crc ∧ t.block.cnt = s.block.cnt) := by
  cases i with
  | crcinit => cases h; exact .inl ⟨rfl, rfl, rfl⟩
  | crcb v => cases h; exact .inr (.inl ⟨v, rfl, rfl, rfl⟩)
  | hld idx v =>
    simp only [exec, execHld] at h
    split at h <;> cases h <;> exact .inr (.inr ⟨rfl, rfl⟩)
  | hrd idx =>
    simp only [exec, execHrd] at h
    split at h <;> cases h <;> exact .inr (.inr ⟨rfl, rfl⟩)
  | hbuild v =>
    simp only [exec, execHbuild] at h
    split at h <;> cases h <;> exact .inr (.inr ⟨rfl, rfl⟩)
  | nop | crcrd | cntrd | lrcrd | hclr | hvalid | pvalid =>
    cases h; exact .inr (.inr ⟨rfl, rfl⟩)

/-- In the counter's range the saturating increment does not lower it. -/
theorem le_countUp {n : Count} (hn : n.toNat ≤ 256) : n ≤ countUp n := by
  rw [BitVec.le_def, countUp_toNat]
  omega

/-- Settles O17: of the three things a command can do to `CNT` (`exec_engine_cases`), only the restart
lowers it. -/
theorem crcinitStartsANewComputation : Obligations.CrcinitStartsANewComputation := by
  refine ⟨by decide, exec_crcinit, fun i s t hrange hexec hlt => ?_⟩
  obtain ⟨hi, -, -⟩ | ⟨v, -, -, hcnt⟩ | ⟨-, hcnt⟩ := exec_engine_cases hexec
  · exact hi
  · rw [hcnt] at hlt
    exact absurd (le_countUp hrange) (BitVec.not_le.2 hlt)
  · rw [hcnt] at hlt
    exact absurd hlt (BitVec.lt_irrefl _)

/-- Settles O18: `CRC` stays the CRC of what was absorbed because `CRCB` is one step of the fold. -/
theorem crcbAbsorbsOneByte : Obligations.CrcbAbsorbsOneByte := by
  refine ⟨fun v => ?_, exec_crcb, fun p v s t hcrc hexec => ?_, by decide +kernel, by decide +kernel⟩
  · rw [← encode_crcb, decode_encode_crcb]
  · have hstep : t.block.crc = crcStep s.block.crc v :=
      (congrArg (·.block.crc) (Host.Outcome.next.inj hexec)).symm
    rw [hstep, hcrc, crc_append_singleton]

/-- Settles O19: each answer is the register read in the state the clause describes. -/
theorem crcrdReadsTheRegister : Obligations.CrcrdReadsTheRegister := by
  refine ⟨by decide, exec_crcrd, exec_crcrd State.reset, fun s t hinit => ?_,
    fun s p ⟨hcrc, _⟩ => ?_, crc_nil, by decide +kernel⟩
  · have hcrc : t.block.crc = 0xFFFF :=
      (congrArg (·.block.crc) (Host.Outcome.next.inj hinit)).symm
    rw [exec_crcrd, hcrc]
  · rw [exec_crcrd, hcrc]

theorem countDatum_toNat (n : Count) : (countDatum n).toNat = n.toNat :=
  BitVec.toNat_setWidth_of_le (by decide)

/-- Settles O20: zero extension keeps the value, so the datum has the counter's bound. -/
theorem cntrdReadsTheCounter : Obligations.CntrdReadsTheCounter :=
  ⟨by decide, exec_cntrd, fun s hrange => (countDatum_toNat s.block.cnt).trans_le hrange⟩

/-! ### `LRCRD` and `HVALID` -/

theorem byteDatum_inj {a b : Byte} : byteDatum a = byteDatum b ↔ a = b := by
  refine ⟨fun h => BitVec.eq_of_toNat_eq ?_, congrArg byteDatum⟩
  have htoNat : ∀ x : Byte, (byteDatum x).toNat = x.toNat :=
    fun _ => BitVec.toNat_setWidth_of_le (by decide)
  rw [← htoNat a, h, htoNat b]

theorem boolDatum_eq_one_iff (b : Bool) : boolDatum b = 0x0001 ↔ b = true := by
  cases b <;> decide

theorem headerValid_iff (h : Header) : headerValid h = true ↔ h.headerChecksum =
    lrc h.packetId h.payloadLength h.payloadChecksumLsb h.payloadChecksumMsb :=
  beq_iff_eq

/-- Two answers given in the same state are the same when their data are. -/
theorem respond_inj {s : State} {d d' : Datum} : respond s d = respond s d' ↔ d = d' := by
  simp [respond, answer]

theorem exec_hvalid_answers_one_iff (s : State) :
    exec .hvalid s = .next (respond s 0x0001) ↔ headerValid s.block.hdr = true := by
  rw [exec_hvalid, Host.Outcome.next.injEq, respond_inj, boolDatum_eq_one_iff]

/-- Settles O21: the header bytes are the fields at addresses 1 to 4, and `zext_16` is one-to-one, so
comparing the data is comparing the bytes. -/
theorem lrcrdComputesTheLrc : Obligations.LrcrdComputesTheLrc := by
  refine ⟨by decide, fun s => ?_⟩
  refine ⟨s.block.hdr.packetId, s.block.hdr.payloadLength, s.block.hdr.payloadChecksumLsb,
    s.block.hdr.payloadChecksumMsb, rfl, rfl, rfl, rfl, exec_lrcrd s, ?_⟩
  exact (exec_hvalid_answers_one_iff s).trans
    ((headerValid_iff _).trans (eq_comm.trans byteDatum_inj.symm))

end Sys2Proof.Machine

namespace Sys2Proof

/-! ### The words of the header commands -/

/-- Every field of a command is where its format's check reads it, one case per format (R61). -/
theorem decode_encode (i : Instr) : decode (encode i) = .ok i := by
  cases i with
  | crcb v | hbuild v => simp [encode, decode, decodeD]
  | hrd idx => simp [encode, decode, decodeX]
  | hld idx v => simp [encode, decode, decodeXD]
  | _ => simp [encode, decode, decodeN]

theorem encode_hld (i : HdrIndex) (v : Byte) :
    encode (.hld i v) = 0x9000 + 256 * i.zeroExtend 16 + v.zeroExtend 16 := by
  apply BitVec.eq_of_toNat_eq
  rw [encode, assembleWord_toNat]
  bv_omega

theorem encode_hrd (i : HdrIndex) : encode (.hrd i) = 0xA000 + 256 * i.zeroExtend 16 := by
  apply BitVec.eq_of_toNat_eq
  rw [encode, assembleWord_toNat]
  bv_omega

theorem encode_hbuild (v : Byte) : encode (.hbuild v) = 0xB000 + v.zeroExtend 16 := by
  apply BitVec.eq_of_toNat_eq
  rw [encode, assembleWord_toNat]
  bv_omega

end Sys2Proof

namespace Sys2Proof.Machine

/-! ### Which addresses the header space has -/

theorem exists_memRead {i : HdrIndex} (hi : i.toNat ≤ 4) (h : Header) :
    ∃ b, memRead h i = some b :=
  Option.isSome_iff_exists.1 ((memRead_isSome h i).trans (decide_eq_true hi))

theorem memRead_eq_none {i : HdrIndex} (hi : 5 ≤ i.toNat) (h : Header) : memRead h i = none := by
  rw [← Option.not_isSome_iff_eq_none, memRead_isSome, decide_eq_true_iff]
  omega

theorem exists_memWrite {i : HdrIndex} (hi : i.toNat ≤ 4) (h : Header) (v : Byte) :
    ∃ h', memWrite h i v = some h' :=
  Option.isSome_iff_exists.1 ((memWrite_isSome h i v).trans (decide_eq_true hi))

theorem memWrite_eq_none {i : HdrIndex} (hi : 5 ≤ i.toNat) (h : Header) (v : Byte) :
    memWrite h i v = none := by
  rw [← Option.not_isSome_iff_eq_none, memWrite_isSome, decide_eq_true_iff]
  omega

/-! ### What the header commands do -/

theorem exec_hclr (s : State) :
    exec .hclr s = .next (respond (setHeader s emptyHeader) 0x0000) := rfl

theorem exec_hld_of_memWrite {i : HdrIndex} {v : Byte} {s : State} {h : Header}
    (hw : memWrite s.block.hdr i v = some h) :
    exec (.hld i v) s = .next (respond (setHeader s h) 0x0000) := by
  simp only [exec, execHld, hw]

theorem exec_hld_badIdx {i : HdrIndex} (hi : 5 ≤ i.toNat) (v : Byte) (s : State) :
    exec (.hld i v) s = .next (raise s .badIdx) := by
  simp only [exec, execHld, memWrite_eq_none hi]

theorem exec_hrd_of_memRead {i : HdrIndex} {s : State} {b : Byte}
    (hr : memRead s.block.hdr i = some b) :
    exec (.hrd i) s = .next (respond s (byteDatum b)) := by
  simp only [exec, execHrd, hr]

theorem exec_hrd_badIdx {i : HdrIndex} (hi : 5 ≤ i.toNat) (s : State) :
    exec (.hrd i) s = .next (raise s .badIdx) := by
  simp only [exec, execHrd, memRead_eq_none hi]

theorem exec_hbuild_of_cnt_ne {s : State} (hc : s.block.cnt ≠ 256) (v : Byte) :
    exec (.hbuild v) s = .next
      (respond (setHeader s (headerOf v (s.block.cnt.extractLsb' 0 8) s.block.crc)) 0x0000) :=
  if_neg hc

theorem exec_hbuild_lenOvf {s : State} (hc : s.block.cnt = 256) (v : Byte) :
    exec (.hbuild v) s = .next (raise s .lenOvf) :=
  if_pos hc

theorem exec_pvalid (s : State) : exec .pvalid s =
    .next (respond s (boolDatum (packetValid s.block.hdr s.block.crc s.block.cnt))) := rfl

theorem exec_pvalid_answers_one_iff (s : State) :
    exec .pvalid s = .next (respond s 0x0001) ↔
      packetValid s.block.hdr s.block.crc s.block.cnt = true := by
  rw [exec_pvalid, Host.Outcome.next.injEq, respond_inj, boolDatum_eq_one_iff]

/-- Settles O23: the two cases are the addresses a write has and has not, and what is read after a
write is said by `memRead_memWrite_same` and `memRead_memWrite_other`. -/
theorem hldLoadsOneHeaderByte : Obligations.HldLoadsOneHeaderByte := by
  refine ⟨fun i v => ?_, fun i v s hi => ?_, fun i v s hi => exec_hld_badIdx hi v s⟩
  · rw [← encode_hld, decode_encode]
  · obtain ⟨h, hw⟩ := exists_memWrite hi s.block.hdr v
    exact ⟨h, exec_hld_of_memWrite hw, memRead_memWrite_same hw,
      fun a ha => memRead_memWrite_other hw ha⟩

/-- Settles O24: the two cases are the addresses a read has and has not. -/
theorem hrdReadsOneHeaderByte : Obligations.HrdReadsOneHeaderByte := by
  refine ⟨fun i => ?_, fun i s hi => ?_, fun i s hi => exec_hrd_badIdx hi s⟩
  · rw [← encode_hrd, decode_encode]
  · obtain ⟨b, hr⟩ := exists_memRead hi s.block.hdr
    exact ⟨b, hr, exec_hrd_of_memRead hr⟩

/-! ### The length and the CRC that a header declares -/

/-- A byte is below the saturated count, so the count of a payload equals a length byte exactly when
its length does: 256 bytes or more are not mistaken for fewer (10_state.md R22). -/
theorem saturatedCount_eq_iff (n : Nat) (b : Byte) :
    saturatedCount n = b.zeroExtend 9 ↔ n = b.toNat := by
  have hlt : b.toNat < 256 := b.isLt
  rw [← BitVec.toNat_inj, saturatedCount_toNat, BitVec.toNat_setWidth_of_le (by decide)]
  omega

/-- Below 256 the low byte of the counter is the whole count. -/
theorem zeroExtend_lowByte {n : Count} (hn : n.toNat ≤ 255) :
    (n.extractLsb' 0 8).zeroExtend 9 = n := by
  apply BitVec.eq_of_toNat_eq
  rw [BitVec.toNat_setWidth_of_le (by decide), BitVec.extractLsb'_toNat]
  omega

theorem lowByte_saturatedCount {n : Nat} (hn : n ≤ 255) :
    (saturatedCount n).extractLsb' 0 8 = BitVec.ofNat 8 n := by
  apply BitVec.eq_of_toNat_eq
  rw [BitVec.extractLsb'_toNat, saturatedCount_toNat, BitVec.toNat_ofNat]
  omega

theorem crc_bytes_append (c : CrcValue) : crcMsb c ++ crcLsb c = c := by
  rw [crcMsb, crcLsb, BitVec.extractLsb'_append_extractLsb'_eq_extractLsb' (by rfl)]
  exact BitVec.extractLsb'_eq_self

/-- Comparing the two bytes is comparing the 16-bit CRC (20_memory.md R43). -/
theorem eq_declaredCrc_iff (c : CrcValue) (h : Header) :
    c = declaredCrc h ↔ crcLsb c = h.payloadChecksumLsb ∧ crcMsb c = h.payloadChecksumMsb := by
  constructor
  · rintro rfl
    exact ⟨BitVec.extractLsb'_append_eq_right, BitVec.extractLsb'_append_eq_left⟩
  · rintro ⟨hlsb, hmsb⟩
    rw [declaredCrc, ← hlsb, ← hmsb, crc_bytes_append]

theorem packetValid_iff (h : Header) (c : CrcValue) (n : Count) : packetValid h c n = true ↔
    n = h.payloadLength.zeroExtend 9 ∧ crcLsb c = h.payloadChecksumLsb ∧
      crcMsb c = h.payloadChecksumMsb := by
  simp only [packetValid, Bool.and_eq_true, beq_iff_eq, and_assoc]

theorem isPacketValid_iff (h : Header) (p : List Byte) : isPacketValid h p = true ↔
    p.length = h.payloadLength.toNat ∧ crc p = declaredCrc h := by
  rw [isPacketValid, packetValid_iff, saturatedCount_eq_iff, eq_declaredCrc_iff]

/-- The count 256 is that of a payload of 256 bytes, and no length byte declares so many. -/
theorem packetValid_saturated (h : Header) (c : CrcValue) : packetValid h c 256 = false := by
  refine Bool.eq_false_iff.2 fun hv => ?_
  obtain ⟨hlen, -⟩ := (packetValid_iff h c 256).1 hv
  have hbyte : 256 = h.payloadLength.toNat := (saturatedCount_eq_iff 256 _).1 hlen
  exact absurd h.payloadLength.isLt (by omega)

/-- Settles O44: the length by `saturatedCount_eq_iff`, the CRC, byte by byte, by
`eq_declaredCrc_iff`. -/
theorem packetValidIsLengthAndCrc : Obligations.PacketValidIsLengthAndCrc :=
  ⟨packetValid_iff, fun _ _ => rfl, isPacketValid_iff, packetValid_saturated,
    fun _ _ _ _ _ => rfl⟩

/-! ### `PVALID` and `HVALID` -/

/-- The datum of a Boolean answer, by the condition that makes it true (30_encoding.md R65). -/
theorem boolDatum_of_iff {b : Bool} {P : Prop} [Decidable P] (h : b = true ↔ P) :
    boolDatum b = if P then 0x0001 else 0x0000 :=
  if_congr h rfl rfl

/-- Settles O28: `packet_valid` of the registers (`exec_pvalid`), which for the registers of a
payload is `is_packet_valid` of it by definition. -/
theorem pvalidJudgesThePayload : Obligations.PvalidJudgesThePayload := by
  refine ⟨by decide, fun s => ?_, fun s p ⟨hcrc, hcnt⟩ => ?_, fun s hcnt => ?_⟩
  · rw [exec_pvalid, boolDatum_of_iff (packetValid_iff _ _ _)]
    rfl
  · rw [exec_pvalid, hcrc, hcnt]
    rfl
  · rw [exec_pvalid, hcnt, packetValid_saturated]
    rfl

theorem exec_hvalid_emptyHeader {s : State} (h : s.block.hdr = emptyHeader) :
    exec .hvalid s = .next (respond s 0x0000) := by
  have hinvalid : headerValid emptyHeader = false := by decide
  rw [exec_hvalid, h, hinvalid]
  rfl

/-- Settles O27: after reset and after `HCLR` the header is the empty one, which is invalid. -/
theorem hvalidJudgesTheHeader : Obligations.HvalidJudgesTheHeader := by
  refine ⟨by decide, fun s => ?_, exec_hvalid_emptyHeader rfl, fun s t hclr => ?_⟩
  · rw [exec_hvalid, boolDatum_of_iff (headerValid_iff _)]
    rfl
  · have ht : respond (setHeader s emptyHeader) 0x0000 = t :=
      Host.Outcome.next.inj ((exec_hclr s).symm.trans hclr)
    subst ht
    exact exec_hvalid_emptyHeader rfl

/-! ### `HBUILD` -/

theorem headerValid_headerOf (id n : Byte) (c : CrcValue) : headerValid (headerOf id n c) = true :=
  (headerValid_iff _).2 rfl

theorem packetValid_headerOf (id : Byte) (c : CrcValue) {n : Count} (hn : n.toNat ≤ 255) :
    packetValid (headerOf id (n.extractLsb' 0 8) c) c n = true :=
  (packetValid_iff _ _ _).2 ⟨(zeroExtend_lowByte hn).symm, rfl, rfl⟩

/-- A count of at most 255 has not saturated: it is the length of the payload, which
`build` takes. -/
theorem build_of_engineHolds (id : Byte) {p : List Byte} {b : Block} (hp : EngineHolds p b)
    (hcnt : b.cnt.toNat ≤ 255) :
    build id p = some (headerOf id (b.cnt.extractLsb' 0 8) b.crc) := by
  obtain ⟨hcrc, hlen⟩ := hp
  have hmax : p.length ≤ Config.maxPayload := by
    rw [hlen, saturatedCount_toNat] at hcnt
    simp only [Config.maxPayload]
    omega
  rw [build, if_pos hmax, hcrc, hlen, lowByte_saturatedCount hmax]

/-- The checksum of the empty payload's header: `0xFF + 0xFF` is `-2` modulo 256. -/
theorem lrc_emptyPayload (id : Byte) : lrc id 0x00 0xFF 0xFF = 2 - id := by
  rw [lrc_eq_neg]
  bv_omega

/-- Settles O26: the header written is `headerOf` of operand, `CNT` and `CRC`, which is valid for
itself and for the registers, and is `build` of the payload they are tied to. -/
theorem hbuildConstructsTheHeader : Obligations.HbuildConstructsTheHeader := by
  refine ⟨fun v => ?_, fun v s hcnt => ?_, fun v s hc => exec_hbuild_lenOvf hc v,
    lrc_emptyPayload⟩
  · rw [← encode_hbuild, decode_encode]
  · have hne : s.block.cnt ≠ 256 := fun h => absurd (h ▸ hcnt) (by decide)
    exact ⟨_, exec_hbuild_of_cnt_ne hne v, rfl, fun p hp => build_of_engineHolds v hp hcnt,
      (exec_hvalid_answers_one_iff _).2 (headerValid_headerOf _ _ _),
      (exec_pvalid_answers_one_iff _).2 (packetValid_headerOf v _ hcnt)⟩

end Sys2Proof.Machine

namespace Sys2Proof.Machine

/-! ### `NOP` and an illegal word -/

theorem exec_nop (s : State) :
    exec .nop s = .next { s with responses := s.responses ++ [⟨.ok, 0x0000⟩] } := rfl

/-- The step on the all-zero word is `NOP`'s effect on the state with that word taken. -/
theorem step_zeroWord (s : State) (rest : List HostEvent) :
    step { s with inputs := .command 0x0000 :: rest } =
      .next { s with inputs := rest, responses := s.responses ++ [⟨.ok, 0x0000⟩] } :=
  (step_command_ok ((decode_eq_nop_iff _).2 rfl) s.block rest s.responses).trans (exec_nop _)

/-- A word that decodes to no command is the encoding of none, for `decode` takes back `encode`. -/
theorem ne_encode_of_not_decodes {w : CommandWord} (h : ∀ i, decode w ≠ .ok i) (i : Instr) :
    encode i ≠ w := by
  rintro rfl
  exact h i (decode_encode i)

/-- Settles O16: the step on an illegal word is `step_of_ne_encode`, that on the all-zero word in its
place `step_zeroWord`. -/
theorem nopChangesNothing : Obligations.NopChangesNothing := by
  refine ⟨(decode_eq_nop_iff _).2 rfl, exec_nop, fun s w rest hs hillegal => ⟨?_, ?_⟩⟩
  · exact step_of_ne_encode hs (ne_encode_of_not_decodes hillegal)
  · exact step_zeroWord s rest

end Sys2Proof.Machine

namespace Sys2Proof.Machine

/-! ### Error responses -/

/-- The two ends of a command (60_exceptions.md R150): it answers `OK`, after the writes that lead to
`s'`, or it raises an error in the state it found. -/
theorem exec_respond_or_raise (i : Instr) (s : State) :
    (∃ s' d, exec i s = .next (respond s' d) ∧ s'.responses = s.responses) ∨
      ∃ e, exec i s = .next (raise s e) := by
  cases i with
  | hld idx v =>
    obtain hi | hi := le_or_gt idx.toNat 4
    · obtain ⟨h, hw⟩ := exists_memWrite hi s.block.hdr v
      exact .inl ⟨_, _, exec_hld_of_memWrite hw, rfl⟩
    · exact .inr ⟨_, exec_hld_badIdx hi v s⟩
  | hrd idx =>
    obtain hi | hi := le_or_gt idx.toNat 4
    · obtain ⟨b, hr⟩ := exists_memRead hi s.block.hdr
      exact .inl ⟨_, _, exec_hrd_of_memRead hr, rfl⟩
    · exact .inr ⟨_, exec_hrd_badIdx hi s⟩
  | hbuild v =>
    by_cases hc : s.block.cnt = 256
    · exact .inr ⟨_, exec_hbuild_lenOvf hc v⟩
    · exact .inl ⟨_, _, exec_hbuild_of_cnt_ne hc v, rfl⟩
  | _ => exact .inl ⟨_, _, rfl, rfl⟩

/-- The same for every command word: one that is no command raises `ILLEGAL` (R151). -/
theorem step_respond_or_raise {s : State} {w : CommandWord} {rest : List HostEvent}
    (hs : s.inputs = .command w :: rest) :
    (∃ s' d, step s = .next (respond s' d) ∧ s'.responses = s.responses) ∨
      ∃ e, step s = .next (raise { s with inputs := rest } e) := by
  obtain ⟨b, _, rs⟩ := s
  subst hs
  cases hd : decode w with
  | error e => exact .inr ⟨.illegal, step_command_error hd b rest rs⟩
  | ok i =>
    rw [step_command_ok hd]
    exact exec_respond_or_raise i ⟨b, rest, rs⟩

/-- A step whose response is not `OK` is the raising of an error, and its response is that error's. -/
theorem step_eq_raise_of_not_ok {s t : State} {w : CommandWord} {rest : List HostEvent} {r : Response}
    (hs : s.inputs = .command w :: rest) (hstep : step s = .next t)
    (hr : t.responses = s.responses ++ [r]) (hne : r.status ≠ .ok) :
    ∃ e, t = raise { s with inputs := rest } e ∧ r = ⟨errorStatus e, 0x0000⟩ := by
  obtain ⟨s', d, hok, hrs⟩ | ⟨e, herr⟩ := step_respond_or_raise hs
  · obtain rfl : t = respond s' d := Host.Outcome.next.inj (hstep.symm.trans hok)
    rw [respond_responses, hrs, List.append_cancel_left_eq, List.singleton_inj] at hr
    exact absurd (hr ▸ rfl) hne
  · obtain rfl : t = raise { s with inputs := rest } e :=
      Host.Outcome.next.inj (hstep.symm.trans herr)
    rw [raise_responses, List.append_cancel_left_eq, List.singleton_inj] at hr
    exact ⟨e, rfl, hr.symm⟩

/-- Settles O10: raising an error appends one response and does nothing else, and `NOP` in its place
(`step_zeroWord`) does the same with another response. -/
theorem errorResponsesChangeNoState : Obligations.ErrorResponsesChangeNoState := by
  intro s t w rest r hs hstep hr hne
  obtain ⟨e, rfl, rfl⟩ := step_eq_raise_of_not_ok hs hstep hr hne
  exact ⟨rfl, rfl, step_zeroWord s rest⟩

end Sys2Proof.Machine

namespace Sys2Proof.Machine

/-! ### The reset event -/

/-- The step on a presented reset (70_reset_and_hazards.md R180), next to `step_command_ok` and
`step_command_error` for command words. -/
theorem step_reset {s : State} {rest : List HostEvent} (hs : s.inputs = .reset :: rest) :
    step s = .next (resetBlock { s with inputs := rest }) := by
  obtain ⟨b, _, rs⟩ := s
  subst hs
  simp only [step, nextInput_cons]

/-- The seven reset values of R30, written out. -/
theorem atReset_values : Block.atReset = ⟨0xFFFF, 0, ⟨0x01, 0x00, 0x00, 0x00, 0x00⟩⟩ := rfl

/-- Settles O33: the step is `resetBlock` after the event is taken, which keeps no element of the
block that it finds and does not touch the responses. -/
theorem resetEventFromAnyState : Obligations.ResetEventFromAnyState := by
  intro s rest hs
  rw [step_reset hs, resetBlock, atReset_values]

end Sys2Proof.Machine

namespace Sys2Proof.Machine

/-! ### The encoding as a bijection of commands and legal words -/

/-- Settles O2: `decode_encode`, one case per format. -/
theorem decodeOfEncode : Obligations.DecodeOfEncode := decode_encode

/-- Settles O3: the decoder reads all the bits of a word whose reserved bit is zero. -/
theorem encodeOfDecode : Obligations.EncodeOfDecode := fun _ _ => encode_eq_of_decode

/-! ### One step, by the event it takes -/

/-- Settles O12: `step_command_ok`, for a state given by its inputs. -/
theorem stepRunsTheDecodedCommand : Obligations.StepRunsTheDecodedCommand := by
  rintro ⟨b, _, rs⟩ w rest i rfl hd
  exact step_command_ok hd b rest rs

/-- Settles O13: with nothing presented the step has no event to take. -/
theorem stepWaitsForInput : Obligations.StepWaitsForInput := by
  rintro ⟨b, _, rs⟩ rfl
  rfl

/-- Settles O30: the first two cases of `exec_engine_cases` are the two commands excluded. -/
theorem onlyEngineCommandsWriteTheEngine : Obligations.OnlyEngineCommandsWriteTheEngine := by
  intro i s t h hinit hcrcb
  obtain ⟨hi, -⟩ | ⟨v, hi, -⟩ | hkept := exec_engine_cases h
  · exact absurd hi hinit
  · exact absurd hi (hcrcb v)
  · exact hkept

/-- What a step can do to `CRC` and `CNT` (10_state.md R20, R32): restart them, absorb a byte, or
keep both. -/
theorem step_engine_cases {s t : State} (h : step s = .next t) :
    (t.block.crc = 0xFFFF ∧ t.block.cnt = 0) ∨
    (∃ v, t.block.crc = crcStep s.block.crc v ∧ t.block.cnt = countUp s.block.cnt) ∨
    (t.block.crc = s.block.crc ∧ t.block.cnt = s.block.cnt) := by
  obtain ⟨b, inputs, rs⟩ := s
  match inputs with
  | [] =>
    cases h
    exact .inr (.inr ⟨rfl, rfl⟩)
  | .reset :: rest =>
    cases (step_reset rfl).symm.trans h
    exact .inl ⟨rfl, rfl⟩
  | .command w :: rest =>
    cases hd : decode w with
    | error e =>
      cases (step_command_error hd b rest rs).symm.trans h
      exact .inr (.inr ⟨rfl, rfl⟩)
    | ok i =>
      rw [step_command_ok hd] at h
      obtain ⟨-, hrestart⟩ | ⟨v, -, habsorb⟩ | hkept := exec_engine_cases h
      · exact .inl hrestart
      · exact .inr (.inl ⟨v, habsorb⟩)
      · exact .inr (.inr hkept)

/-- Settles O50: the restart gives 0, the increment saturates, and anything else keeps the
counter. -/
theorem everyStepKeepsTheCountInRange : Obligations.EveryStepKeepsTheCountInRange := by
  intro s t hrange hstep
  obtain ⟨-, hcnt⟩ | ⟨v, -, hcnt⟩ | ⟨-, hcnt⟩ := step_engine_cases hstep
  · simp [CountInRange, hcnt]
  · rw [CountInRange, hcnt, countUp_toNat]
    exact min_le_right _ _
  · rwa [CountInRange, hcnt]

/-! ### The payload the engine registers stand for -/

theorem engineHolds_restart {b : Block} (hcrc : b.crc = 0xFFFF) (hcnt : b.cnt = 0) :
    EngineHolds [] b :=
  ⟨hcrc.trans crc_nil.symm, hcnt⟩

theorem engineHolds_absorb {p : List Byte} {v : Byte} {b b' : Block} (h : EngineHolds p b)
    (hcrc : b'.crc = crcStep b.crc v) (hcnt : b'.cnt = countUp b.cnt) :
    EngineHolds (p ++ [v]) b' := by
  obtain ⟨hp, hn⟩ := h
  refine ⟨?_, ?_⟩
  · rw [hcrc, hp, crc_append_singleton]
  · rw [hcnt, hn, countUp_saturatedCount, List.length_append, List.length_singleton]

theorem engineHolds_of_kept {p : List Byte} {b b' : Block} (h : EngineHolds p b)
    (hcrc : b'.crc = b.crc) (hcnt : b'.cnt = b.cnt) : EngineHolds p b' :=
  ⟨hcrc.trans h.1, hcnt.trans h.2⟩

/-- Settles O51: a restart gives the registers of the empty payload, an absorbed byte those of the
payload with the byte appended. -/
theorem everyStepKeepsTheEngineTied : Obligations.EveryStepKeepsTheEngineTied := by
  rintro s t ⟨p, hp⟩ hstep
  obtain ⟨hcrc, hcnt⟩ | ⟨v, hcrc, hcnt⟩ | ⟨hcrc, hcnt⟩ := step_engine_cases hstep
  · exact ⟨[], engineHolds_restart hcrc hcnt⟩
  · exact ⟨p ++ [v], engineHolds_absorb hp hcrc hcnt⟩
  · exact ⟨p, engineHolds_of_kept hp hcrc hcnt⟩

/-- Settles O49: reset is a restart of the engine. -/
theorem resetMeetsTheInvariants : Obligations.ResetMeetsTheInvariants :=
  ⟨Nat.zero_le _, engineHolds_restart rfl rfl⟩

theorem absorbedBy_crcb {w : CommandWord} {v : Byte} (hd : decode w = .ok (.crcb v))
    (p : List Byte) : absorbedBy p (.command w) = p ++ [v] := by
  simp only [absorbedBy, hd]

theorem absorbedBy_crcinit {w : CommandWord} (hd : decode w = .ok .crcinit) (p : List Byte) :
    absorbedBy p (.command w) = [] := by
  simp only [absorbedBy, hd]

/-- A word that is not one of the two engine writes, be it a command or not, absorbs nothing: the
two hypotheses are the side conditions of the last case of `absorbedBy`. -/
theorem absorbedBy_other {w : CommandWord} (hcrcb : ∀ v, decode w ≠ .ok (.crcb v))
    (hinit : decode w ≠ .ok .crcinit) (p : List Byte) : absorbedBy p (.command w) = p := by
  simp only [absorbedBy]

theorem restartsEngine_command_iff (w : CommandWord) :
    restartsEngine (.command w) = true ↔ decode w = .ok .crcinit := by
  simp only [restartsEngine, decide_eq_true_iff]
  cases decode w <;> simp [Except.toOption]

/-- An event that starts the engine again absorbs the empty payload from whatever block. -/
theorem engineHolds_of_restartsEngine {s t : State} {e : HostEvent} {rest : List HostEvent}
    (hs : s.inputs = e :: rest) (he : restartsEngine e = true) (hstep : step s = .next t) :
    EngineHolds [] t.block := by
  cases e with
  | reset =>
    cases (step_reset hs).symm.trans hstep
    exact engineHolds_restart rfl rfl
  | command w =>
    have hd := (restartsEngine_command_iff w).1 he
    cases (stepRunsTheDecodedCommand s w rest _ hs hd).symm.trans hstep
    exact engineHolds_restart rfl rfl

/-- Settles O52: a restart by `engineHolds_of_restartsEngine`, `CRCB` by one step of the fold; after
any other word the registers are as before, and so is the absorbed payload. -/
theorem engineFollowsTheAbsorbedPayload : Obligations.EngineFollowsTheAbsorbedPayload := by
  intro s t e rest p hs hp hstep
  cases e with
  | reset => exact engineHolds_of_restartsEngine hs rfl hstep
  | command w =>
    cases hd : decode w with
    | error e =>
      obtain ⟨b, _, rs⟩ := s
      subst hs
      cases (step_command_error hd b rest rs).symm.trans hstep
      rw [absorbedBy_other (by simp [hd]) (by simp [hd])]
      exact hp
    | ok i =>
      have hexec := (stepRunsTheDecodedCommand s w rest i hs hd).symm.trans hstep
      by_cases hinit : i = .crcinit
      · subst hinit
        rw [absorbedBy_crcinit hd]
        exact engineHolds_of_restartsEngine hs ((restartsEngine_command_iff w).2 hd) hstep
      · by_cases hcrcb : ∃ v, i = .crcb v
        · obtain ⟨v, rfl⟩ := hcrcb
          cases hexec
          rw [absorbedBy_crcb hd]
          exact engineHolds_absorb hp rfl rfl
        · rw [not_exists] at hcrcb
          obtain ⟨hcrc, hcnt⟩ := onlyEngineCommandsWriteTheEngine i _ t hexec hinit hcrcb
          rw [absorbedBy_other (by simpa [hd] using hcrcb) (by simpa [hd] using hinit)]
          exact engineHolds_of_kept hp hcrc hcnt

end Sys2Proof.Machine

namespace Sys2Proof

/-! ### The opcode map: which words match a row -/

/-- A field that the mask keeps whole is the pattern's field in every word of the row. -/
theorem field_of_matches {w m p : CommandWord} (h : w &&& m = p) (start len : Nat)
    (hm : m.extractLsb' start len = BitVec.allOnes len) :
    w.extractLsb' start len = p.extractLsb' start len := by
  rw [← h, BitVec.extractLsb'_and, hm, BitVec.and_allOnes]

theorem opField_of_matches {w m : CommandWord} {o : BitVec 4} (h : w &&& m = assembleWord o 0 0)
    (hm : opField m = BitVec.allOnes 4) : (opField w).toNat = o.toNat :=
  congrArg BitVec.toNat ((field_of_matches h 12 4 hm).trans (opField_assembleWord o 0 0))

theorem rsvField_of_matches {w m : CommandWord} {o : BitVec 4} (h : w &&& m = assembleWord o 0 0)
    (hm : rsvField m = BitVec.allOnes 1) : rsvField w = 0 :=
  (field_of_matches h 11 1 hm).trans (rsvField_assembleWord o 0 0)

theorem idxField_of_matches {w m : CommandWord} {o : BitVec 4} (h : w &&& m = assembleWord o 0 0)
    (hm : idxField m = BitVec.allOnes 3) : idxField w = 0 :=
  (field_of_matches h 8 3 hm).trans (idxField_assembleWord o 0 0)

theorem imm8Field_of_matches {w m : CommandWord} {o : BitVec 4} (h : w &&& m = assembleWord o 0 0)
    (hm : imm8Field m = BitVec.allOnes 8) : imm8Field w = 0 :=
  (field_of_matches h 0 8 hm).trans (imm8Field_assembleWord o 0 0)

theorem eq_of_matches_formatN {w p : CommandWord} (h : w &&& 0xFFFF = p) : w = p :=
  (BitVec.and_allOnes (x := w)).symm.trans h

/-- The mask of format D leaves `imm8` free. -/
theorem eq_of_matches_formatD {w : CommandWord} {o : BitVec 4}
    (h : w &&& 0xFF00 = assembleWord o 0 0) : assembleWord o 0 (imm8Field w) = w :=
  assembleWord_of_fields (rsvField_of_matches h (by decide)) (opField_of_matches h (by decide))
    (idxField_of_matches h (by decide)) rfl

/-- The mask of format X leaves `idx` free. -/
theorem eq_of_matches_formatX {w : CommandWord} {o : BitVec 4}
    (h : w &&& 0xF8FF = assembleWord o 0 0) : assembleWord o (idxField w) 0 = w :=
  assembleWord_of_fields (rsvField_of_matches h (by decide)) (opField_of_matches h (by decide))
    rfl (imm8Field_of_matches h (by decide))

/-- The mask of format XD leaves `idx` and `imm8` free. -/
theorem eq_of_matches_formatXD {w : CommandWord} {o : BitVec 4}
    (h : w &&& 0xF800 = assembleWord o 0 0) : assembleWord o (idxField w) (imm8Field w) = w :=
  assembleWord_of_fields (rsvField_of_matches h (by decide)) (opField_of_matches h (by decide))
    rfl rfl

/-- The word of every command belongs to the command's row, which is one of the twelve. -/
theorem encode_matches_opcodeRow (i : Instr) :
    opcodeRow i ∈ opcodeMap ∧ encode i &&& (opcodeRow i).mask = (opcodeRow i).pattern := by
  have hrow : Laws.EncodesRow.Statement i → opcodeRow i ∈ opcodeMap →
      opcodeRow i ∈ opcodeMap ∧ encode i &&& (opcodeRow i).mask = (opcodeRow i).pattern :=
    fun hm hmem => ⟨hmem, beq_iff_eq.1 hm⟩
  cases i with
  | nop => exact hrow Laws.EncodesRow.nop (by decide)
  | crcinit => exact hrow Laws.EncodesRow.crcinit (by decide)
  | crcb v => exact hrow (Laws.EncodesRow.crcb v) (by decide : opcodeRow (.crcb 0) ∈ opcodeMap)
  | crcrd => exact hrow Laws.EncodesRow.crcrd (by decide)
  | cntrd => exact hrow Laws.EncodesRow.cntrd (by decide)
  | lrcrd => exact hrow Laws.EncodesRow.lrcrd (by decide)
  | hclr => exact hrow Laws.EncodesRow.hclr (by decide)
  | hld a v => exact hrow (Laws.EncodesRow.hld a v) (by decide : opcodeRow (.hld 0 0) ∈ opcodeMap)
  | hrd a => exact hrow (Laws.EncodesRow.hrd a) (by decide : opcodeRow (.hrd 0) ∈ opcodeMap)
  | hbuild v =>
    exact hrow (Laws.EncodesRow.hbuild v) (by decide : opcodeRow (.hbuild 0) ∈ opcodeMap)
  | hvalid => exact hrow Laws.EncodesRow.hvalid (by decide)
  | pvalid => exact hrow Laws.EncodesRow.pvalid (by decide)

theorem decode_of_encode_eq {w : CommandWord} {i : Instr} (h : encode i = w) : decode w = .ok i :=
  h ▸ decode_encode i

/-- One case per row, closed by the lemma of the row's format: the free fields of the word are the
operands of its command. -/
theorem exists_decode_of_matches {w : CommandWord} {r : OpcodeRow} (hr : r ∈ opcodeMap)
    (h : w &&& r.mask = r.pattern) : ∃ i, decode w = .ok i ∧ opcodeRow i = r := by
  simp only [opcodeMap, List.mem_cons, List.not_mem_nil, or_false] at hr
  rcases hr with rfl | rfl | rfl | rfl | rfl | rfl | rfl | rfl | rfl | rfl | rfl | rfl
  · exact ⟨.nop, decode_of_encode_eq (eq_of_matches_formatN h).symm, rfl⟩
  · exact ⟨.crcinit, decode_of_encode_eq (eq_of_matches_formatN h).symm, rfl⟩
  · exact ⟨.crcb _, decode_of_encode_eq (eq_of_matches_formatD (o := 0x2) h), rfl⟩
  · exact ⟨.crcrd, decode_of_encode_eq (eq_of_matches_formatN h).symm, rfl⟩
  · exact ⟨.cntrd, decode_of_encode_eq (eq_of_matches_formatN h).symm, rfl⟩
  · exact ⟨.lrcrd, decode_of_encode_eq (eq_of_matches_formatN h).symm, rfl⟩
  · exact ⟨.hclr, decode_of_encode_eq (eq_of_matches_formatN h).symm, rfl⟩
  · exact ⟨.hld _ _, decode_of_encode_eq (eq_of_matches_formatXD (o := 0x9) h), rfl⟩
  · exact ⟨.hrd _, decode_of_encode_eq (eq_of_matches_formatX (o := 0xA) h), rfl⟩
  · exact ⟨.hbuild _, decode_of_encode_eq (eq_of_matches_formatD (o := 0xB) h), rfl⟩
  · exact ⟨.hvalid, decode_of_encode_eq (eq_of_matches_formatN h).symm, rfl⟩
  · exact ⟨.pvalid, decode_of_encode_eq (eq_of_matches_formatN h).symm, rfl⟩

/-! ### The census of the legal words -/

/-- The 256 bytes. -/
def allBytes : List Byte := (List.finRange 256).map BitVec.ofFin

/-- The 8 indexes. -/
def allIndexes : List HdrIndex := (List.finRange 8).map BitVec.ofFin

theorem mem_allBytes (v : Byte) : v ∈ allBytes :=
  List.mem_map.2 ⟨v.toFin, List.mem_finRange _, rfl⟩

theorem mem_allIndexes (i : HdrIndex) : i ∈ allIndexes :=
  List.mem_map.2 ⟨i.toFin, List.mem_finRange _, rfl⟩

theorem nodup_allBytes : allBytes.Nodup :=
  (List.nodup_finRange 256).map fun _ _ h => congrArg BitVec.toFin h

theorem nodup_allIndexes : allIndexes.Nodup :=
  (List.nodup_finRange 8).map fun _ _ h => congrArg BitVec.toFin h

/-- The commands without an operand, format N. -/
def plainCommands : List Instr :=
  [.nop, .crcinit, .crcrd, .cntrd, .lrcrd, .hclr, .hvalid, .pvalid]

/-- Every command with every operand. -/
def allCommands : List Instr :=
  plainCommands ++ allBytes.map .crcb ++ allBytes.map .hbuild ++ allIndexes.map .hrd ++
    (allIndexes ×ˢ allBytes).map fun x => .hld x.1 x.2

theorem mem_allCommands (i : Instr) : i ∈ allCommands := by
  simp only [allCommands, List.mem_append, List.mem_map, Prod.exists, List.mem_product]
  cases i with
  | crcb v => exact .inl (.inl (.inl (.inr ⟨v, mem_allBytes v, rfl⟩)))
  | hbuild v => exact .inl (.inl (.inr ⟨v, mem_allBytes v, rfl⟩))
  | hrd a => exact .inl (.inr ⟨a, mem_allIndexes a, rfl⟩)
  | hld a v => exact .inr ⟨a, v, ⟨mem_allIndexes a, mem_allBytes v⟩, rfl⟩
  | _ => exact .inl (.inl (.inl (.inl (by decide))))

/-- Each part has no repetition since its constructor is one-to-one, and the parts are of different
constructors. -/
theorem nodup_allCommands : allCommands.Nodup := by
  have hplain : plainCommands.Nodup := by decide
  have hcrcb : (allBytes.map Instr.crcb).Nodup := nodup_allBytes.map fun _ _ => Instr.crcb.inj
  have hhbuild : (allBytes.map Instr.hbuild).Nodup := nodup_allBytes.map fun _ _ => Instr.hbuild.inj
  have hhrd : (allIndexes.map Instr.hrd).Nodup := nodup_allIndexes.map fun _ _ => Instr.hrd.inj
  have hhld : ((allIndexes ×ˢ allBytes).map fun x => Instr.hld x.1 x.2).Nodup :=
    (nodup_allIndexes.product nodup_allBytes).map fun _ _ h =>
      Prod.ext (Instr.hld.inj h).1 (Instr.hld.inj h).2
  simp only [allCommands, List.nodup_append, hplain, hcrcb, hhbuild, hhrd, hhld, true_and,
    List.forall_mem_append, List.forall_mem_map]
  simp [plainCommands]

theorem length_allCommands : allCommands.length = 2576 := by
  simp [allCommands, plainCommands, allBytes, allIndexes, List.length_product]

theorem encode_injective : Function.Injective encode := fun i j h =>
  Except.ok.inj ((decode_encode i).symm.trans ((congrArg decode h).trans (decode_encode j)))

end Sys2Proof

namespace Sys2Proof.Machine

/-- Settles O4: a word of two rows would decode to commands of both, and the legal words are those
of `allCommands`, one for each. -/
theorem decoderFollowsTheOpcodeMap : Obligations.DecoderFollowsTheOpcodeMap := by
  refine ⟨fun w i hd => ?_, fun w r => exists_decode_of_matches, fun w r hr r' hr' h h' => ?_, rfl,
    allCommands.map encode, nodup_allCommands.map encode_injective, ?_, fun w => ?_⟩
  · rw [← encode_eq_of_decode hd]
    exact encode_matches_opcodeRow i
  · obtain ⟨i, hi, rfl⟩ := exists_decode_of_matches hr h
    obtain ⟨j, hj, rfl⟩ := exists_decode_of_matches hr' h'
    rw [Except.ok.inj (hi.symm.trans hj)]
  · rw [List.length_map, length_allCommands]
  · rw [List.mem_map]
    constructor
    · rintro ⟨i, -, rfl⟩
      exact ⟨i, decode_encode i⟩
    · rintro ⟨i, hd⟩
      exact ⟨i, mem_allCommands i, encode_eq_of_decode hd⟩

/-! ### Words written out -/

/-- Settles O1: seven illegal words, and one word for each row. -/
theorem wordsOfTheOpcodeMapDecode : Obligations.WordsOfTheOpcodeMapDecode := by
  refine ⟨by decide, by decide, by decide, by decide, by decide, by decide, by decide, by decide,
    by decide, by decide, by decide, by decide, by decide, ?_⟩
  simp only [List.forall_mem_cons]
  exact ⟨⟨.reservedOpcode, by decide⟩, ⟨.reservedBitSet, by decide⟩, ⟨.fieldNotZero, by decide⟩,
    ⟨.reservedBitSet, by decide⟩, ⟨.fieldNotZero, by decide⟩, ⟨.fieldNotZero, by decide⟩,
    ⟨.reservedBitSet, by decide⟩, by simp⟩

/-- Settles O8: the fields are the digits of the word's value (`assembleWord_toNat`). -/
theorem wordsAsNumbers : Obligations.WordsAsNumbers := by
  refine ⟨rfl, rfl, fun v => ?_, rfl, rfl, rfl, rfl, fun i v => ?_, fun i => ?_, fun v => ?_, rfl,
    rfl⟩
  all_goals
    rw [encode, assembleWord_toNat]
    simp

/-! ### The status of every response -/

/-- The status a command answers with, by what it finds (60_exceptions.md R152, R153). -/
def commandStatus (b : Block) : Instr → Status
  | .hld idx _ | .hrd idx => if 5 ≤ idx.toNat then .badIdx else .ok
  | .hbuild _ => if b.cnt = 256 then .lenOvf else .ok
  | _ => .ok

theorem exec_status (i : Instr) (s : State) : ∃ (t : State) (d : Datum), exec i s = .next t ∧
    t.responses = s.responses ++ [⟨commandStatus s.block i, d⟩] := by
  cases i with
  | hld idx v =>
    obtain hi | hi := Nat.lt_or_ge idx.toNat 5
    · obtain ⟨h, hw⟩ := exists_memWrite (Nat.le_of_lt_succ hi) s.block.hdr v
      exact ⟨_, _, exec_hld_of_memWrite hw, by rw [commandStatus, if_neg (Nat.not_le.2 hi)]; rfl⟩
    · exact ⟨_, _, exec_hld_badIdx hi v s, by rw [commandStatus, if_pos hi]; rfl⟩
  | hrd idx =>
    obtain hi | hi := Nat.lt_or_ge idx.toNat 5
    · obtain ⟨b, hr⟩ := exists_memRead (Nat.le_of_lt_succ hi) s.block.hdr
      exact ⟨_, _, exec_hrd_of_memRead hr, by rw [commandStatus, if_neg (Nat.not_le.2 hi)]; rfl⟩
    · exact ⟨_, _, exec_hrd_badIdx hi s, by rw [commandStatus, if_pos hi]; rfl⟩
  | hbuild v =>
    by_cases hc : s.block.cnt = 256
    · exact ⟨_, _, exec_hbuild_lenOvf hc v, by rw [commandStatus, if_pos hc]; rfl⟩
    · exact ⟨_, _, exec_hbuild_of_cnt_ne hc v, by rw [commandStatus, if_neg hc]; rfl⟩
  | _ => exact ⟨_, _, rfl, rfl⟩

theorem commandStatus_ne_illegal (b : Block) (i : Instr) : commandStatus b i ≠ .illegal := by
  cases i with
  | hld | hrd | hbuild =>
    simp only [commandStatus]
    split <;> decide
  | _ => simp [commandStatus]

theorem commandStatus_eq_badIdx_iff (b : Block) (i : Instr) : commandStatus b i = .badIdx ↔
    ∃ idx : HdrIndex, 5 ≤ idx.toNat ∧ (i = .hrd idx ∨ ∃ v, i = .hld idx v) := by
  cases i with
  | hbuild =>
    simp only [commandStatus]
    split <;> simp
  | _ => simp [commandStatus]

theorem commandStatus_eq_lenOvf_iff (b : Block) (i : Instr) : commandStatus b i = .lenOvf ↔
    b.cnt = 256 ∧ ∃ v, i = .hbuild v := by
  cases i with
  | hld | hrd =>
    simp only [commandStatus]
    split <;> simp
  | _ => simp [commandStatus]

/-- Settles O11: a word that is no command is `ILLEGAL`; a command's status is `commandStatus`. -/
theorem errorCausesOfEveryWord : Obligations.ErrorCausesOfEveryWord := by
  rintro ⟨b, _, rs⟩ t w rest r rfl hstep hr
  cases hd : decode w with
  | error e =>
    cases (step_command_error hd b rest rs).symm.trans hstep
    obtain rfl : ⟨.illegal, 0x0000⟩ = r := List.singleton_inj.1 (List.append_cancel_left hr)
    simp
  | ok i =>
    obtain ⟨t', d, hexec, ht'⟩ := exec_status i ⟨b, rest, rs⟩
    cases hexec.symm.trans ((step_command_ok hd b rest rs).symm.trans hstep)
    obtain rfl : ⟨commandStatus b i, d⟩ = r :=
      List.singleton_inj.1 (List.append_cancel_left (ht'.symm.trans hr))
    simp [commandStatus_ne_illegal, commandStatus_eq_badIdx_iff, commandStatus_eq_lenOvf_iff]

end Sys2Proof.Machine

namespace Sys2Proof.Machine

/-! ### `lrc` as the byte that makes the sum zero -/

/-- The complement acts on the low eight bits of a sum of any size. -/
theorem xor_ff_mod (n : Nat) : (n % 256) ^^^ 0xFF = (n ^^^ 0xFF) % 256 :=
  (Nat.xor_mod_two_pow (a := n) (b := 0xFF) (n := 8)).symm

/-- `lrc` sees its inputs through their sum only. -/
theorem lrc_eq_neg_sum (a b c d : Byte) : lrc a b c d = -[a, b, c, d].sum := by
  rw [lrc_eq_neg]
  simp only [List.sum_cons, List.sum_nil]
  ring

theorem lrc_toNat (a b c d : Byte) :
    (lrc a b c d).toNat = (256 - (a.toNat + b.toNat + c.toNat + d.toNat) % 256) % 256 := by
  rw [lrc_eq_neg, BitVec.toNat_neg, byteSum_toNat]

theorem sum_eq_zero_iff_eq_lrc (h a b c d : Byte) : h + a + b + c + d = 0 ↔ h = lrc a b c d := by
  have hassoc : h + a + b + c + d = h + (a + b + c + d) := by ring
  rw [hassoc, lrc_eq_neg, add_eq_zero_iff_eq_neg]

/-- Settles O36: (a) the complement does not read past the low byte, (b) and (c) `lrc` is the
negated sum, and a sum does not depend on the order. -/
theorem lrcEquivalentForms : Obligations.LrcEquivalentForms := by
  intro a b c d
  refine ⟨?_, lrc_toNat a b c d, fun h => sum_eq_zero_iff_eq_lrc h a b c d, ?_⟩
  · rw [lrcIsTheIncrementedComplement, xor_ff_mod, Nat.mod_add_mod]
  · rintro l hl w x y z rfl
    rw [lrc_eq_neg_sum, lrc_eq_neg_sum, (List.mem_permutations.1 hl).sum_eq]

/-! ### `crc_step` on numbers -/

/-- One shift of R84 on numbers. -/
def shiftNat (r : Nat) : Nat :=
  if r.testBit 15 then (2 * r % 65536) ^^^ 0x1021 else 2 * r % 65536

theorem shiftLeft_one_toNat (r : CrcValue) : (r <<< 1).toNat = 2 * r.toNat % 65536 := by
  rw [BitVec.toNat_shiftLeft, Nat.shiftLeft_eq, mul_comm]

theorem crcShift_toNat (r : CrcValue) : (crcShift r).toNat = shiftNat r.toNat := by
  simp only [crcShift, shiftNat, ← BitVec.testBit_toNat]
  split
  · rw [BitVec.toNat_xor, shiftLeft_one_toNat]
    rfl
  · exact shiftLeft_one_toNat r

theorem crcShifts_toNat (n : Nat) (r : CrcValue) :
    (crcShifts n r).toNat = shiftNat^[n] r.toNat := by
  induction n generalizing r with
  | zero => rfl
  | succ n ih => rw [crcShifts, ih, crcShift_toNat, Function.iterate_succ_apply]

/-- The byte in bits 15 to 8, where `crc_step` XORs it in. -/
def highByte (d : Byte) : CrcValue := d.zeroExtend 16 <<< 8

theorem crcStep_eq_crcShifts (c : CrcValue) (d : Byte) :
    crcStep c d = crcShifts 8 (c ^^^ highByte d) := rfl

theorem highByte_toNat (d : Byte) : (highByte d).toNat = 256 * d.toNat := by
  have hd : d.toNat < 256 := d.isLt
  rw [highByte, BitVec.toNat_shiftLeft, BitVec.toNat_setWidth_of_le (by decide), Nat.shiftLeft_eq]
  omega

/-- Settles O37: the shifts correspond one by one (`crcShift_toNat`). -/
theorem crcStepIsEightShifts : Obligations.CrcStepIsEightShifts := by
  intro c d
  rw [crcStep_eq_crcShifts, crcShifts_toNat, BitVec.toNat_xor, highByte_toNat]
  rfl

/-! ### `crc_step` is linear and one-to-one -/

/-- What the shift XORs in when `dropped` was bit 15. -/
def polyIf (dropped : Bool) : CrcValue := if dropped then Config.crcPoly else 0

theorem polyIf_xor : ∀ x y : Bool, polyIf (x ^^ y) = polyIf x ^^^ polyIf y := by decide

/-- The shift without its case distinction. -/
theorem crcShift_eq_xor (r : CrcValue) : crcShift r = r <<< 1 ^^^ polyIf (r.getLsbD 15) := by
  unfold crcShift polyIf
  split
  · rfl
  · exact BitVec.xor_zero.symm

theorem crcShift_xor (a b : CrcValue) : crcShift (a ^^^ b) = crcShift a ^^^ crcShift b := by
  simp only [crcShift_eq_xor, BitVec.shiftLeft_xor_distrib, BitVec.getLsbD_xor, polyIf_xor]
  ac_rfl

/-- Linearity over XOR: what the table-driven form (R85) rests on. -/
theorem crcShifts_xor (n : Nat) (a b : CrcValue) :
    crcShifts n (a ^^^ b) = crcShifts n a ^^^ crcShifts n b := by
  induction n generalizing a b with
  | zero => rfl
  | succ n ih => rw [crcShifts, crcShift_xor, ih]; rfl

/-- The polynomial is odd, so bit 0 after the shift is the dropped bit. -/
theorem crcShift_getLsbD_zero (r : CrcValue) : (crcShift r).getLsbD 0 = r.getLsbD 15 := by
  rw [crcShift_eq_xor]
  cases r.getLsbD 15 <;> simp [polyIf, Config.crcPoly]

/-- Knowing the dropped bit, the rest of the register is the result without the polynomial. -/
theorem crcShift_injective : Function.Injective crcShift := by
  intro a b h
  have htop : a.getLsbD 15 = b.getLsbD 15 := by
    rw [← crcShift_getLsbD_zero, h, crcShift_getLsbD_zero]
  have hshift : a <<< 1 = b <<< 1 := by
    rw [crcShift_eq_xor, crcShift_eq_xor b, htop] at h
    exact (BitVec.xor_left_inj _).1 h
  refine BitVec.eq_of_getLsbD_eq fun k hk => ?_
  obtain rfl | hlow : k = 15 ∨ k + 1 < 16 := by omega
  · exact htop
  · have hbit := congrArg (·.getLsbD (k + 1)) hshift
    simpa only [BitVec.getLsbD_shiftLeft, hlow, Nat.add_sub_cancel, decide_true, Bool.true_and,
      show ¬ k + 1 < 1 by omega, decide_false, Bool.not_false] using hbit

theorem crcShifts_injective (n : Nat) : Function.Injective (crcShifts n) := by
  induction n with
  | zero => exact Function.injective_id
  | succ n ih => exact ih.comp crcShift_injective

theorem crcStep_injective_register (d : Byte) : Function.Injective fun c => crcStep c d :=
  fun _ _ h => (BitVec.xor_left_inj _).1 (crcShifts_injective 8 h)

theorem highByte_injective : Function.Injective highByte := by
  intro d d' h
  have hnat := congrArg BitVec.toNat h
  rw [highByte_toNat, highByte_toNat] at hnat
  exact BitVec.eq_of_toNat_eq (by omega)

theorem crcStep_injective_byte (c : CrcValue) : Function.Injective fun d => crcStep c d :=
  fun _ _ h => highByte_injective ((BitVec.xor_right_inj _).1 (crcShifts_injective 8 h))

/-- Settles O38: one-to-one on a finite type is bijective. -/
theorem crcStepIsInjectiveInEachArgument : Obligations.CrcStepIsInjectiveInEachArgument :=
  ⟨fun d => Finite.injective_iff_bijective.1 (crcStep_injective_register d), crcStep_injective_byte⟩

/-! ### The bytes of the register one by one -/

theorem crcShift_of_lt {r : CrcValue} (h : r.toNat < 2 ^ 15) : crcShift r = r <<< 1 := by
  have htop : r.getLsbD 15 = false := Nat.testBit_lt_two_pow h
  rw [crcShift_eq_xor, htop]
  exact BitVec.xor_zero

/-- While no bit is dropped the shifts only shift. -/
theorem crcShifts_of_lt {n : Nat} {r : CrcValue} (h : r.toNat * 2 ^ n < 2 ^ 16) :
    crcShifts n r = r <<< n := by
  induction n generalizing r with
  | zero => exact (BitVec.shiftLeft_zero r).symm
  | succ n ih =>
    have hdouble : r.toNat * 2 * 2 ^ n < 2 ^ 16 := by rwa [mul_assoc, ← pow_succ']
    have hsmall : r.toNat * 2 < 2 ^ 16 :=
      (Nat.le_mul_of_pos_right _ (Nat.two_pow_pos n)).trans_lt hdouble
    have hshift : (r <<< 1).toNat = r.toNat * 2 := by
      rw [shiftLeft_one_toNat]
      omega
    rw [crcShifts, crcShift_of_lt (by omega), ih (by rwa [hshift]), ← BitVec.shiftLeft_add,
      Nat.add_comm]

/-- The low byte of the register moves up whole. -/
theorem crcShifts_lowByte (b : Byte) : crcShifts 8 (b.zeroExtend 16) = highByte b := by
  refine crcShifts_of_lt ?_
  rw [BitVec.toNat_setWidth_of_le (by decide)]
  have hb : b.toNat < 256 := b.isLt
  omega

/-- The register is its two bytes. -/
theorem crc_eq_bytes (c : CrcValue) :
    c = (crcLsb c).zeroExtend 16 ^^^ highByte (crcMsb c) := by
  refine BitVec.eq_of_getLsbD_eq fun k hk => ?_
  rw [BitVec.getLsbD_xor, highByte, BitVec.getLsbD_shiftLeft]
  obtain hlow | hhigh := Nat.lt_or_ge k 8
  · simp [crcLsb, hlow, hk]
  · have hk8 : 8 + (k - 8) = k := by omega
    have hlt : k - 8 < 8 := by omega
    have hlt16 : k - 8 < 16 := by omega
    simp [crcLsb, crcMsb, Nat.not_lt.2 hhigh, hk, hk8, hlt, hlt16]

theorem highByte_xor (a b : Byte) : highByte (a ^^^ b) = highByte a ^^^ highByte b := by
  simp only [highByte, BitVec.zeroExtend_eq_setWidth, BitVec.setWidth_xor,
    BitVec.shiftLeft_xor_distrib]

/-- R85 without the table: the low byte moves up, and the high byte XOR the input byte runs through
the shifts alone. -/
theorem crcStep_eq_bytes (c : CrcValue) (d : Byte) :
    crcStep c d = highByte (crcLsb c) ^^^ crcStep 0 (crcMsb c ^^^ d) := by
  have hsplit : c ^^^ highByte d =
      (crcLsb c).zeroExtend 16 ^^^ (0#16 ^^^ highByte (crcMsb c ^^^ d)) := by
    rw [highByte_xor, BitVec.zero_xor, ← BitVec.xor_assoc, ← crc_eq_bytes]
  rw [crcStep_eq_crcShifts, hsplit, crcShifts_xor, crcShifts_lowByte]
  rfl

theorem shiftLeft_eight (c : CrcValue) : c <<< 8 = highByte (crcLsb c) := by
  refine BitVec.eq_of_getLsbD_eq fun k hk => ?_
  rw [highByte, BitVec.getLsbD_shiftLeft, BitVec.getLsbD_shiftLeft]
  have hlt : k - 8 < 8 := by omega
  have hlt16 : k - 8 < 16 := by omega
  simp [crcLsb, hlt, hlt16, hk]

theorem crcTable_getD (i : Byte) : crcTable.getD i.toNat 0 = crcStep 0x0000 i := by
  revert i
  decide +kernel

/-- Settles O39: the printed table is the 256 steps from zero, and any other step is one of these
XOR the low byte moved up (`crcStep_eq_bytes`). -/
theorem tableFormEqualsBitwiseForm : Obligations.TableFormEqualsBitwiseForm := by
  refine ⟨by decide +kernel, crcTable_getD, fun c d => ?_⟩
  rw [crcStepTable, crcTable_getD, shiftLeft_eight, crcStep_eq_bytes c d]
  rfl

/-! ### What the CRC catches -/

theorem crcStep_zero_zero : crcStep 0 0 = 0 := by decide +kernel

/-- Absorbing the register's own high byte leaves the low byte, moved up. -/
theorem crcStep_crcMsb (c : CrcValue) : crcStep c (crcMsb c) = highByte (crcLsb c) := by
  rw [crcStep_eq_bytes, BitVec.xor_self]
  exact (congrArg _ crcStep_zero_zero).trans BitVec.xor_zero

theorem crcStep_highByte (b : Byte) : crcStep (highByte b) b = 0 := by
  rw [crcStep_eq_crcShifts, BitVec.xor_self]
  exact crcStep_zero_zero

/-- Settles O41: the register is emptied a byte at a time. -/
theorem crcResidueIsZero : Obligations.CrcResidueIsZero := by
  intro p
  calc crc (p ++ [crcMsb (crc p), crcLsb (crc p)])
      = crcStep (crcStep (crc p) (crcMsb (crc p))) (crcLsb (crc p)) := by
        simp only [crc_eq_crcFrom, crcFrom_append, crcFrom_cons, crcFrom_nil]
    _ = 0 := by rw [crcStep_crcMsb, crcStep_highByte]

theorem crcFrom_injective (q : List Byte) : Function.Injective fun c => crcFrom c q := by
  induction q with
  | nil => exact Function.injective_id
  | cons b q ih => exact ih.comp (crcStep_injective_register b)

/-- Settles O42: the two registers differ after the changed byte and stay different. -/
theorem oneChangedByteChangesTheCrc : Obligations.OneChangedByteChangesTheCrc := by
  intro p q b b' hb h
  simp only [crc_eq_crcFrom, crcFrom_append, crcFrom_cons] at h
  exact hb (crcStep_injective_byte _ (crcFrom_injective q h))

/-! ### Headers -/

/-- The sum of the five header bytes modulo 256. -/
def headerSum (h : Header) : Byte :=
  h.headerChecksum + h.packetId + h.payloadLength + h.payloadChecksumLsb + h.payloadChecksumMsb

theorem headerValid_iff_headerSum (h : Header) : headerValid h = true ↔ headerSum h = 0 :=
  (headerValid_iff h).trans (sum_eq_zero_iff_eq_lrc _ _ _ _ _).symm

theorem headerSum_toNat (h : Header) : (headerSum h).toNat =
    (h.headerChecksum.toNat + h.packetId.toNat + h.payloadLength.toNat +
      h.payloadChecksumLsb.toNat + h.payloadChecksumMsb.toNat) % 256 := by
  simp only [headerSum, BitVec.toNat_add, Nat.mod_add_mod]

theorem headerValid_iff_toNat (h : Header) : headerValid h = true ↔
    (h.headerChecksum.toNat + h.packetId.toNat + h.payloadLength.toNat +
      h.payloadChecksumLsb.toNat + h.payloadChecksumMsb.toNat) % 256 = 0 := by
  rw [headerValid_iff_headerSum, ← headerSum_toNat, ← BitVec.toNat_inj]
  rfl

/-- Settles O43: being the LRC of the others is completing their sum to zero. -/
theorem headerValidIsZeroByteSum : Obligations.HeaderValidIsZeroByteSum :=
  fun h => ⟨headerValid_iff h, headerValid_iff_toNat h⟩

/-- Writing one header byte changes the sum by the difference of the bytes. -/
theorem headerSum_memWrite {h h' : Header} {i : HdrIndex} {u v : Byte}
    (hw : memWrite h i v = some h') (hr : memRead h i = some u) :
    headerSum h' + u = headerSum h + v := by
  rcases hdrIndex_cases i with rfl | rfl | rfl | rfl | rfl | rfl | rfl | rfl <;>
    cases hw <;> cases hr <;> simp only [headerSum] <;> ring

theorem toNat_le_of_memWrite {h h' : Header} {i : HdrIndex} {v : Byte}
    (hw : memWrite h i v = some h') : i.toNat ≤ 4 :=
  decide_eq_true_iff.1 ((memWrite_isSome h i v).symm.trans (by rw [hw]; rfl))

/-- Settles O46: a sum that stays zero when one byte changes had the same byte before. -/
theorem oneChangedHeaderByteIsCaught : Obligations.OneChangedHeaderByteIsCaught := by
  refine ⟨by decide, by decide, fun h h' i v hvalid hw hne => ?_, fun b1 b2 b3 b4 => ?_⟩
  · obtain ⟨u, hr⟩ := exists_memRead (toNat_le_of_memWrite hw) h
    refine Bool.eq_false_iff.2 fun hvalid' => hne ?_
    have hsum := headerSum_memWrite hw hr
    rw [(headerValid_iff_headerSum h).1 hvalid, (headerValid_iff_headerSum h').1 hvalid',
      zero_add, zero_add] at hsum
    rw [hr, hsum]
  · exact ⟨lrc b1 b2 b3 b4, (headerValid_iff _).2 rfl, fun b0 h0 => (headerValid_iff _).1 h0⟩

/-! ### Packets and frames -/

/-- Settles O47: a wrong length and a wrong CRC each make `is_packet_valid` false
(`isPacketValid_iff`), and a changed byte makes the CRC wrong. -/
theorem oneChangedPayloadByteIsCaught : Obligations.OneChangedPayloadByteIsCaught := by
  refine ⟨fun h p hlen => Bool.eq_false_iff.2 fun hv => ?_,
    fun h p q b b' hv hb => Bool.eq_false_iff.2 fun hv' => ?_⟩
  · obtain ⟨hlen', -⟩ := (isPacketValid_iff h p).1 hv
    exact hlen hlen'
  · obtain ⟨-, hcrc⟩ := (isPacketValid_iff h _).1 hv
    obtain ⟨-, hcrc'⟩ := (isPacketValid_iff h _).1 hv'
    exact oneChangedByteChangesTheCrc p q b b' hb (hcrc.trans hcrc'.symm)

theorem frameValid_headerBytes_append (h : Header) (p : List Byte) :
    frameValid (headerBytes h ++ p) = some (headerValid h && isPacketValid h p) := rfl

theorem frameValid_iff (h : Header) (p : List Byte) :
    frameValid (headerBytes h ++ p) = some true ↔
      headerValid h = true ∧ isPacketValid h p = true := by
  rw [frameValid_headerBytes_append, Option.some_inj, Bool.and_eq_true]

theorem frameValid_isSome_iff (f : List Byte) : (frameValid f).isSome ↔ 5 ≤ f.length := by
  match f with
  | [] | [_] | [_, _] | [_, _, _] | [_, _, _, _] => simp [frameValid]
  | _ :: _ :: _ :: _ :: _ :: _ => simp [frameValid]

/-- Settles O48: the two conjuncts of `frameValid_iff`, each by its own characterisation. -/
theorem frameValidIsTheConjunction : Obligations.FrameValidIsTheConjunction := by
  refine ⟨fun f0 f1 f2 f3 f4 p => ?_, frameValid_isSome_iff⟩
  have hlength : (f0 :: f1 :: f2 :: f3 :: f4 :: p).length = 5 + f2.toNat ↔ p.length = f2.toNat := by
    simp only [List.length_cons]
    omega
  rw [hlength]
  exact (frameValid_iff ⟨f0, f1, f2, f3, f4⟩ p).trans
    (and_congr (headerValid_iff_toNat _) (isPacketValid_iff _ p))

theorem build_eq_some {id : Byte} {p : List Byte} (hp : p.length ≤ 255) :
    build id p = some (headerOf id (BitVec.ofNat 8 p.length) (crc p)) := if_pos hp

theorem build_eq_none {id : Byte} {p : List Byte} (hp : 255 < p.length) : build id p = none :=
  if_neg (Nat.not_le.2 hp)

theorem isPacketValid_headerOf (id : Byte) {p : List Byte} (hp : p.length ≤ 255) :
    isPacketValid (headerOf id (BitVec.ofNat 8 p.length) (crc p)) p = true := by
  refine (isPacketValid_iff _ p).2 ⟨?_, (crc_bytes_append (crc p)).symm⟩
  exact (Nat.mod_eq_of_lt (Nat.lt_succ_of_le hp)).symm

/-- Settles O45: the header `build` gives is `headerOf` the length and the CRC. -/
theorem builtHeadersAreValid : Obligations.BuiltHeadersAreValid := by
  refine fun id p => ⟨fun hp => ?_, build_eq_none⟩
  have hheader := headerValid_headerOf id (BitVec.ofNat 8 p.length) (crc p)
  have hpacket := isPacketValid_headerOf id hp
  exact ⟨_, build_eq_some hp, rfl, hheader, hpacket, (frameValid_iff _ p).2 ⟨hheader, hpacket⟩⟩

end Sys2Proof.Machine

namespace Sys2Proof.Machine

/-! ### What each command leaves alone -/

theorem block_eq_of_exec_hrd {a : HdrIndex} {s t : State} (h : exec (.hrd a) s = .next t) :
    t.block = s.block := by
  obtain ha | ha := le_or_gt a.toNat 4
  · obtain ⟨b, hr⟩ := exists_memRead ha s.block.hdr
    cases (exec_hrd_of_memRead hr).symm.trans h
    rfl
  · cases (exec_hrd_badIdx ha s).symm.trans h
    rfl

/-- Settles O29: `HRD` answers or raises, and neither writes; the others are `respond` after a write
of the engine or after none. -/
theorem onlyHeaderCommandsWriteTheHeader : Obligations.OnlyHeaderCommandsWriteTheHeader := by
  intro i s t h hhclr hhld hhbuild a
  suffices hhdr : t.block.hdr = s.block.hdr by rw [hhdr]
  cases i with
  | hclr => exact absurd rfl hhclr
  | hld idx v => exact absurd rfl (hhld idx v)
  | hbuild v => exact absurd rfl (hhbuild v)
  | hrd idx => rw [block_eq_of_exec_hrd h]
  | _ => cases h; rfl

/-- The commands that write nothing (20_memory.md R48): the reads and `NOP`. -/
def IsRead (i : Instr) : Prop :=
  i ∈ [.nop, .crcrd, .cntrd, .lrcrd, .hvalid, .pvalid] ∨ ∃ a, i = .hrd a

theorem block_eq_of_isRead {i : Instr} {s t : State} (hi : IsRead i) (h : exec i s = .next t) :
    t.block = s.block := by
  obtain hplain | ⟨a, rfl⟩ := hi
  · simp only [List.mem_cons, List.not_mem_nil, or_false] at hplain
    rcases hplain with rfl | rfl | rfl | rfl | rfl | rfl <;> cases h <;> rfl
  · exact block_eq_of_exec_hrd h

/-! ### One command word, as the fold of R49 takes it -/

/-- The step on a command word, by the two functions the fold is made of. -/
theorem step_command (b : Block) (w : CommandWord) (rest : List HostEvent) (rs : List Response) :
    step ⟨b, .command w :: rest, rs⟩ = .next ⟨afterCommand b w, rest, rs ++ answersTo b w⟩ ∧
      (answersTo b w).length = 1 := by
  obtain ⟨⟨b', r⟩, hstep⟩ := step_command_answers_once b w
  have hafter : afterCommand b w = b' := by simp only [afterCommand, hstep]
  have hanswers : answersTo b w = [r] := by simp only [answersTo, hstep, List.nil_append]
  rw [hafter, hanswers]
  exact ⟨hstep rest rs, rfl⟩

/-- For the word of a command the two functions are its meaning on the block alone. -/
theorem afterCommand_encode {i : Instr} {b : Block} {t : State} (h : exec i ⟨b, [], []⟩ = .next t) :
    afterCommand b (encode i) = t.block ∧ answersTo b (encode i) = t.responses := by
  have hstep : step ⟨b, [.command (encode i)], []⟩ = .next t :=
    (step_command_ok (decode_encode i) b [] []).trans h
  simp only [afterCommand, answersTo, hstep, and_self]

theorem afterCommands_cons (b : Block) (w : CommandWord) (ws : List CommandWord) :
    afterCommands b (w :: ws) = afterCommands (afterCommand b w) ws := rfl

theorem answersToAll_cons (b : Block) (w : CommandWord) (ws : List CommandWord) :
    answersToAll b (w :: ws) = answersTo b w ++ answersToAll (afterCommand b w) ws := rfl

theorem afterCommands_append (b : Block) (ws vs : List CommandWord) :
    afterCommands b (ws ++ vs) = afterCommands (afterCommands b ws) vs := List.foldl_append

theorem answersToAll_append (b : Block) (ws vs : List CommandWord) :
    answersToAll b (ws ++ vs) = answersToAll b ws ++ answersToAll (afterCommands b ws) vs := by
  induction ws generalizing b with
  | nil => rfl
  | cons w ws ih =>
    rw [List.cons_append, answersToAll_cons, ih, answersToAll_cons, afterCommands_cons,
      List.append_assoc]

/-- Settles O31: a read leaves the block that the later words find. -/
theorem readsMayBeRepeatedOrDropped : Obligations.ReadsMayBeRepeatedOrDropped := by
  intro i b ws hi
  obtain ⟨b', r, hexec⟩ := exec_answers_once i b
  obtain ⟨hafter, -⟩ := afterCommand_encode (hexec [] [])
  have hkept : afterCommand b (encode i) = b := hafter.trans (block_eq_of_isRead hi (hexec [] []))
  rw [afterCommands_cons, answersToAll_cons, hkept]
  exact ⟨rfl, rfl⟩

/-! ### Runs -/

theorem run_succ_iff (M : Host.Core) {k : Nat} {s t : M.State} :
    M.run (k + 1) s = .next t ↔ ∃ s', M.step s = .next s' ∧ M.run k s' = .next t := by
  rw [Host.Core.run]
  cases M.step s <;> simp

theorem runsTo_succ_iff {k : Nat} {s t : State} :
    RunsTo (k + 1) s t ↔ ∃ s', step s = .next s' ∧ RunsTo k s' t :=
  run_succ_iff core

/-- Settles O14, by induction on the words: one step is one step of the fold (`step_command`). -/
theorem commandListIsAFold : Obligations.CommandListIsAFold := by
  intro ws
  induction ws with
  | nil =>
    rintro ⟨b, _, rs⟩ rest rfl
    refine ⟨?_, rfl⟩
    rw [answersToAll, List.append_nil]
    rfl
  | cons w ws ih =>
    rintro ⟨b, _, rs⟩ rest rfl
    obtain ⟨hstep, hlength⟩ := step_command b w (ws.map .command ++ rest) rs
    obtain ⟨hrun, hlengths⟩ := ih ⟨afterCommand b w, _, rs ++ answersTo b w⟩ rest rfl
    refine ⟨runsTo_succ_iff.2 ⟨_, hstep, ?_⟩, ?_⟩
    · rwa [afterCommands_cons, answersToAll_cons, ← List.append_assoc]
    · rw [answersToAll_cons, List.length_append, hlength, hlengths, List.length_cons, Nat.add_comm]

/-- Every presented event is taken in one step, with one response if it is a command. -/
theorem exists_step {s : State} {e : HostEvent} {rest : List HostEvent}
    (hs : s.inputs = e :: rest) :
    ∃ t, step s = .next t ∧ t.inputs = rest ∧
      t.responses.length = s.responses.length + commandCount [e] := by
  obtain ⟨b, _, rs⟩ := s
  subst hs
  cases e with
  | reset => exact ⟨_, step_reset rfl, rfl, rfl⟩
  | command w =>
    obtain ⟨hstep, hlength⟩ := step_command b w rest rs
    exact ⟨_, hstep, rfl, by rw [List.length_append, hlength]; rfl⟩

theorem commandCount_cons (e : HostEvent) (es : List HostEvent) :
    commandCount (e :: es) = commandCount [e] + commandCount es := by
  cases e with
  | reset => exact (Nat.zero_add _).symm
  | command w => exact Nat.add_comm _ _

/-- The events presented first are taken, and what is presented after them remains. -/
theorem exists_run {s : State} {es rest : List HostEvent} (hs : s.inputs = es ++ rest) :
    ∃ t, RunsTo es.length s t ∧ t.inputs = rest ∧
      t.responses.length = s.responses.length + commandCount es := by
  induction es generalizing s with
  | nil => exact ⟨s, rfl, hs, rfl⟩
  | cons e es ih =>
    obtain ⟨s', hstep, hinputs, hcount⟩ := exists_step hs
    obtain ⟨t, hrun, hrest, hcounts⟩ := ih hinputs
    refine ⟨t, runsTo_succ_iff.2 ⟨s', hstep, hrun⟩, hrest, ?_⟩
    rw [hcounts, hcount, commandCount_cons e es, Nat.add_assoc]

/-- Settles O15: the whole list is the events presented first, with nothing after them. -/
theorem everyInputListRunsToItsEnd : Obligations.EveryInputListRunsToItsEnd :=
  fun _ => exists_run (List.append_nil _).symm

/-! ### Streaming -/

/-- The step lemma for the payload (`engineFollowsTheAbsorbedPayload`) along a run. -/
theorem engineHolds_run {s t : State} {es rest : List HostEvent} {p : List Byte}
    (hs : s.inputs = es ++ rest) (hp : EngineHolds p s.block) (hrun : RunsTo es.length s t) :
    EngineHolds (es.foldl absorbedBy p) t.block := by
  induction es generalizing s p with
  | nil =>
    cases hrun
    exact hp
  | cons e es ih =>
    obtain ⟨s', hstep, hrun'⟩ := runsTo_succ_iff.1 hrun
    obtain ⟨s'', hstep', hinputs, -⟩ := exists_step hs
    cases hstep.symm.trans hstep'
    exact ih hinputs (engineFollowsTheAbsorbedPayload s s' e _ p hs hp hstep) hrun'

/-- An event that does not start the engine again appends its bytes, one or none. -/
theorem absorbedBy_of_not_restartsEngine {e : HostEvent} (he : restartsEngine e = false)
    (p : List Byte) (es : List HostEvent) :
    absorbedBy p e ++ crcbBytes es = p ++ crcbBytes (e :: es) := by
  cases e with
  | reset => cases he
  | command w =>
    by_cases hcrcb : ∃ v, decode w = .ok (.crcb v)
    · obtain ⟨v, hd⟩ := hcrcb
      simp [absorbedBy_crcb hd, crcbBytes, hd]
    · rw [not_exists] at hcrcb
      have hinit : decode w ≠ .ok .crcinit := fun hd => by
        rw [(restartsEngine_command_iff w).2 hd] at he
        cases he
      rw [absorbedBy_other hcrcb hinit]
      simp only [crcbBytes]

theorem foldl_absorbedBy {es : List HostEvent} (hes : ∀ e ∈ es, restartsEngine e = false)
    (p : List Byte) : es.foldl absorbedBy p = p ++ crcbBytes es := by
  induction es generalizing p with
  | nil => exact (List.append_nil p).symm
  | cons e es ih =>
    obtain ⟨he, hrest⟩ := List.forall_mem_cons.1 hes
    rw [List.foldl_cons, ih hrest, absorbedBy_of_not_restartsEngine he]

/-- Settles O53: the first step leaves the registers of the empty payload, and the events after it
append the bytes of their `CRCB` commands. -/
theorem streamingComputesTheCrc : Obligations.StreamingComputesTheCrc := by
  intro s start es rest hs hstart hes
  obtain ⟨s', hstep, hinputs, -⟩ := exists_step hs
  obtain ⟨t, hrun, hrest, -⟩ := exists_run hinputs
  refine ⟨t, runsTo_succ_iff.2 ⟨s', hstep, hrun⟩, hrest, ?_⟩
  have hholds := engineHolds_run hinputs (engineHolds_of_restartsEngine hs hstart hstep) hrun
  rwa [foldl_absorbedBy hes] at hholds

/-! ### `HCLR`, reset and the header space -/

theorem packetValid_emptyHeader_iff (c : CrcValue) (n : Count) :
    packetValid emptyHeader c n = true ↔ n = 0 ∧ c = 0 := by
  rw [packetValid_iff, ← eq_declaredCrc_iff c emptyHeader]
  rfl

theorem exec_pvalid_of_false {s : State}
    (h : packetValid s.block.hdr s.block.crc s.block.cnt = false) :
    exec .pvalid s = .next (respond s 0x0000) := by
  rw [exec_pvalid, h]
  rfl

/-- The registers of a payload are not both zero: the CRC of the empty payload is `0xFFFF`. -/
theorem not_zero_of_engineTracks {b : Block} (h : EngineTracks b) : ¬ (b.cnt = 0 ∧ b.crc = 0) := by
  rintro ⟨hcnt, hcrc⟩
  obtain ⟨p, hp, hn⟩ := h
  have hempty : p.length = 0 := (saturatedCount_eq_iff p.length 0).1 (hn.symm.trans hcnt)
  rw [List.length_eq_zero_iff.1 hempty, crc_nil, hcrc] at hp
  exact absurd hp (by decide)

/-- Settles O22: the header is the empty one, and its length and CRC are zero
(`packetValid_emptyHeader_iff`). -/
theorem hclrMakesTheEmptyHeader : Obligations.HclrMakesTheEmptyHeader := by
  refine ⟨by decide, fun s => ⟨_, exec_hclr s, rfl, exec_hvalid_emptyHeader rfl, ?_,
    fun htracks => ?_⟩⟩
  · exact (exec_pvalid_answers_one_iff _).trans (packetValid_emptyHeader_iff _ _)
  · have hfalse : packetValid emptyHeader s.block.crc s.block.cnt = false :=
      Bool.eq_false_iff.2 fun hv =>
        not_zero_of_engineTracks htracks ((packetValid_emptyHeader_iff _ _).1 hv)
    exact exec_pvalid_of_false hfalse

/-- Settles O25: a read and a write answer exactly at the addresses 0 to 4. -/
theorem headerSpaceMap : Obligations.HeaderSpaceMap := by
  refine fun h v => ⟨rfl, rfl, rfl, rfl, rfl, fun i => ⟨fun hi => ?_, fun hi => ?_⟩⟩
  · exact ⟨memRead_eq_none hi h, memWrite_eq_none hi h v⟩
  · exact ⟨(memRead_isSome h i).trans (decide_eq_true hi),
      (memWrite_isSome h i v).trans (decide_eq_true hi)⟩

/-- Settles O32: the values are those of `Block.atReset`; the header after reset is the empty one,
and the engine holds the empty payload, so neither predicate is true. -/
theorem resetValues : Obligations.ResetValues :=
  ⟨rfl, rfl, rfl, rfl, rfl, rfl, rfl, by decide, by decide, exec_hvalid_emptyHeader rfl, rfl⟩

/-- Settles O34: each of the two commands writes what the other leaves. -/
theorem crcinitAndHclrReachTheResetState : Obligations.CrcinitAndHclrReachTheResetState := by
  intro b
  have hinit : ∀ b : Block, afterCommand b 0x1000 = { b with crc := 0xFFFF, cnt := 0 } :=
    fun b => (afterCommand_encode (exec_crcinit ⟨b, [], []⟩)).1
  have hclr : ∀ b : Block, afterCommand b 0x8000 = { b with hdr := emptyHeader } :=
    fun b => (afterCommand_encode (exec_hclr ⟨b, [], []⟩)).1
  constructor
  · rw [afterCommands_cons, afterCommands_cons, hinit, hclr]
    rfl
  · rw [afterCommands_cons, afterCommands_cons, hclr, hinit]
    rfl

end Sys2Proof.Machine

namespace Sys2Proof.Machine

/-! ### A list of commands on the block

A pseudo-instruction is its list of commands, so what it does is composed from what its parts do:
`Performs` says where a list takes a block and what it answers. -/

/-- The commands `is` take the block `b` to `b'` and answer `rs`. -/
def Performs (is : List Instr) (b b' : Block) (rs : List Response) : Prop :=
  afterCommands b (is.map encode) = b' ∧ answersToAll b (is.map encode) = rs

/-- The response of a command that reads nothing. -/
def doneResponse : Response := ⟨.ok, 0x0000⟩

theorem performs_nil (b : Block) : Performs [] b b [] := ⟨rfl, rfl⟩

theorem performs_cons {i : Instr} {is : List Instr} {b b' b'' : Block} {r : Response}
    {rs : List Response} (h : exec i ⟨b, [], []⟩ = .next ⟨b', [], [r]⟩)
    (his : Performs is b' b'' rs) : Performs (i :: is) b b'' (r :: rs) := by
  obtain ⟨hafter, hanswers⟩ := afterCommand_encode h
  obtain ⟨rfl, rfl⟩ := his
  exact ⟨by rw [List.map_cons, afterCommands_cons, hafter],
    by rw [List.map_cons, answersToAll_cons, hafter, hanswers]; rfl⟩

theorem performs_single {i : Instr} {b b' : Block} {r : Response}
    (h : exec i ⟨b, [], []⟩ = .next ⟨b', [], [r]⟩) : Performs [i] b b' [r] :=
  performs_cons h (performs_nil b')

theorem performs_append {is js : List Instr} {b b' b'' : Block} {rs rs' : List Response}
    (his : Performs is b b' rs) (hjs : Performs js b' b'' rs') :
    Performs (is ++ js) b b'' (rs ++ rs') := by
  obtain ⟨rfl, rfl⟩ := his
  obtain ⟨rfl, rfl⟩ := hjs
  exact ⟨by rw [List.map_append, afterCommands_append],
    by rw [List.map_append, answersToAll_append]⟩

/-- The run of a block to which the words of the commands are presented (R49). -/
theorem runsTo_of_performs {is : List Instr} {s : State} {b : Block} {rs : List Response} {k : Nat}
    (h : Performs is s.block b rs) (hs : s.inputs = []) (hk : is.length = k) :
    RunsTo k (present s (is.map encode)) ⟨b, [], s.responses ++ rs⟩ := by
  obtain ⟨rfl, rfl⟩ := h
  have hinputs : (present s (is.map encode)).inputs = (is.map encode).map .command ++ [] := by
    rw [present_inputs, hs, List.nil_append, List.append_nil]
  obtain ⟨hrun, -⟩ := commandListIsAFold (is.map encode) _ [] hinputs
  rwa [List.length_map, hk] at hrun

/-! ### The common parts of the pseudo-instructions -/

theorem exec_crcb_absorbs (p : List Byte) (v : Byte) (h : Header) :
    exec (.crcb v) ⟨⟨crc p, saturatedCount p.length, h⟩, [], []⟩ =
      .next ⟨⟨crc (p ++ [v]), saturatedCount (p ++ [v]).length, h⟩, [], [doneResponse]⟩ := by
  rw [exec_crcb, countUp_saturatedCount, ← crc_append_singleton, List.length_append]
  rfl

theorem performs_crcbs (p bs : List Byte) (h : Header) :
    Performs (bs.map .crcb) ⟨crc p, saturatedCount p.length, h⟩
      ⟨crc (p ++ bs), saturatedCount (p ++ bs).length, h⟩
      (List.replicate bs.length doneResponse) := by
  induction bs generalizing p with
  | nil =>
    rw [List.append_nil]
    exact performs_nil _
  | cons v bs ih =>
    have happend : p ++ v :: bs = (p ++ [v]) ++ bs := by rw [List.append_assoc]; rfl
    rw [happend]
    exact performs_cons (exec_crcb_absorbs p v h) (ih (p ++ [v]))

/-- `CRCINIT` and the `CRCB`s, from any block: the engine registers of the payload (R93). -/
theorem performs_absorbAll (bs : List Byte) (b : Block) :
    Performs (absorbAll bs) b ⟨crc bs, saturatedCount bs.length, b.hdr⟩
      (List.replicate (bs.length + 1) doneResponse) :=
  performs_cons (exec_crcinit ⟨b, [], []⟩) (performs_crcbs [] bs b.hdr)

/-- The five loads, from any block: the header register is the loaded header (R45). -/
theorem performs_hload (h : Header) (b : Block) :
    Performs (expand (.hload h.headerChecksum h.packetId h.payloadLength h.payloadChecksumLsb
      h.payloadChecksumMsb)) b { b with hdr := h } (List.replicate 5 doneResponse) :=
  performs_cons rfl <| performs_cons rfl <| performs_cons rfl <| performs_cons rfl <|
    performs_cons rfl <| performs_nil _

theorem performs_hread (b : Block) :
    Performs (expand .hread) b b ((headerBytes b.hdr).map fun v => ⟨.ok, v.zeroExtend 16⟩) :=
  performs_cons rfl <| performs_cons rfl <| performs_cons rfl <| performs_cons rfl <|
    performs_cons rfl <| performs_nil _

theorem performs_hvalid (b : Block) :
    Performs [.hvalid] b b [⟨.ok, if headerValid b.hdr then 0x0001 else 0x0000⟩] :=
  performs_single (exec_hvalid ⟨b, [], []⟩)

/-- `PVALID` on the engine registers of a payload (R118). -/
theorem performs_pvalid (p : List Byte) (h : Header) :
    Performs [.pvalid] ⟨crc p, saturatedCount p.length, h⟩ ⟨crc p, saturatedCount p.length, h⟩
      [⟨.ok, if isPacketValid h p then 0x0001 else 0x0000⟩] :=
  performs_single (exec_pvalid _)

/-! ### The pseudo-instructions -/

/-- Settles O54: after the bytes are absorbed `CRCRD` reads their CRC. -/
theorem crcPseudoReturnsTheCrc : Obligations.CrcPseudoReturnsTheCrc := by
  intro s bs hs
  have hperforms := performs_append (performs_absorbAll bs s.block) (performs_single (exec_crcrd _))
  rw [List.append_assoc]
  exact runsTo_of_performs hperforms hs (by simp [expand, absorbAll])

/-- Settles O55: the four loads leave `HDR[0]`, which `LRCRD` does not read. -/
theorem lrcPseudoReturnsTheLrc : Obligations.LrcPseudoReturnsTheLrc := by
  intro s a b c d hs
  have hperforms : Performs (expand (.lrc a b c d)) s.block
      { s.block with hdr := ⟨s.block.hdr.headerChecksum, a, b, c, d⟩ }
      (List.replicate 4 doneResponse ++ [⟨.ok, (lrc a b c d).zeroExtend 16⟩]) :=
    performs_cons rfl <| performs_cons rfl <| performs_cons rfl <| performs_cons rfl <|
      performs_single rfl
  rw [List.append_assoc]
  exact runsTo_of_performs hperforms hs rfl

/-- Settles O56: the reads find the header that was loaded. -/
theorem hloadThenHreadGivesTheBytes : Obligations.HloadThenHreadGivesTheBytes := by
  intro s h hs
  have hperforms := performs_append (performs_hload h s.block)
    (performs_hread { s.block with hdr := h })
  rw [List.append_assoc]
  exact runsTo_of_performs hperforms hs rfl

/-- Settles O58: `PVALID` finds the engine registers of the bytes. -/
theorem chkpktAnswersIsPacketValid : Obligations.ChkpktAnswersIsPacketValid := by
  intro s bs hs
  have hperforms := performs_append (performs_absorbAll bs s.block) (performs_pvalid bs s.block.hdr)
  rw [List.append_assoc]
  exact runsTo_of_performs hperforms hs (by simp [expand, absorbAll])

/-- Settles O59: the loads replace the whole header and `CRCINIT` the engine registers, so nothing
before them is read; the frame's validity is `frameValid_iff`. -/
theorem chkframeAnswersBothPredicates : Obligations.ChkframeAnswersBothPredicates := by
  refine fun s h p hs => ⟨?_, frameValid_iff h p⟩
  have hperforms := performs_append (performs_hload h s.block) <|
    performs_append (performs_hvalid { s.block with hdr := h }) <|
    performs_append (performs_absorbAll p _) (performs_pvalid p h)
  rw [List.append_assoc, List.append_assoc, List.append_assoc]
  exact runsTo_of_performs hperforms hs (by simp [expand, absorbAll])

/-! ### `MKHDR` -/

theorem saturatedCount_of_le {n : Nat} (hn : n ≤ 255) : saturatedCount n = BitVec.ofNat 9 n :=
  congrArg (BitVec.ofNat 9) (min_eq_left (hn.trans (by decide)))

theorem saturatedCount_of_lt {n : Nat} (hn : 255 < n) : saturatedCount n = 256 :=
  congrArg (BitVec.ofNat 9) (min_eq_right hn)

/-- `HBUILD` on the engine registers of a payload of at most 255 bytes. -/
theorem performs_hbuild (id : Byte) {p : List Byte} (hp : p.length ≤ 255) (h : Header) :
    Performs [.hbuild id] ⟨crc p, saturatedCount p.length, h⟩
      ⟨crc p, saturatedCount p.length, headerOf id (BitVec.ofNat 8 p.length) (crc p)⟩
      [doneResponse] := by
  have hne : saturatedCount p.length ≠ 256 := fun h256 => by
    have hnat := congrArg BitVec.toNat h256
    rw [saturatedCount_toNat, min_eq_left (hp.trans (by decide))] at hnat
    exact absurd (hnat ▸ hp) (by decide)
  rw [← lowByte_saturatedCount hp]
  exact performs_single (exec_hbuild_of_cnt_ne hne id)

/-- A valid header of a payload, by the two commands that judge it. -/
theorem performs_judgements {p : List Byte} {h : Header} (hheader : headerValid h = true)
    (hpacket : isPacketValid h p = true) :
    Performs [.hvalid, .pvalid] ⟨crc p, saturatedCount p.length, h⟩
      ⟨crc p, saturatedCount p.length, h⟩ [⟨.ok, 0x0001⟩, ⟨.ok, 0x0001⟩] := by
  have hperforms :=
    performs_append (performs_hvalid ⟨crc p, saturatedCount p.length, h⟩) (performs_pvalid p h)
  rwa [if_pos hheader, if_pos hpacket] at hperforms

theorem performs_hbuild_lenOvf (id : Byte) {p : List Byte} (hp : 255 < p.length) (h : Header) :
    Performs [.hbuild id] ⟨crc p, saturatedCount p.length, h⟩ ⟨crc p, 256, h⟩
      [⟨.lenOvf, 0x0000⟩] := by
  rw [saturatedCount_of_lt hp]
  exact performs_single (exec_hbuild_lenOvf rfl id)

/-- Settles O57: the two lengths are those that the counter does and does not hold. -/
theorem mkhdrBuildsAValidHeader : Obligations.MkhdrBuildsAValidHeader := by
  refine fun s id bs hs => ⟨fun hlen => ?_, fun hlen => ?_⟩
  · refine ⟨_, build_eq_some hlen, ?_⟩
    have hbuilt := performs_append (performs_absorbAll bs s.block) (performs_hbuild id hlen _)
    have hperforms := performs_append hbuilt <|
      performs_judgements (headerValid_headerOf id _ _) (isPacketValid_headerOf id hlen)
    rw [← saturatedCount_of_le hlen, List.append_assoc, List.replicate_succ']
    exact runsTo_of_performs hperforms hs (by simp [expand, absorbAll])
  · have hperforms :=
      performs_append (performs_absorbAll bs s.block) (performs_hbuild_lenOvf id hlen s.block.hdr)
    rw [List.append_assoc]
    exact runsTo_of_performs hperforms hs (by simp [expand, absorbAll])

end Sys2Proof.Machine

namespace Sys2Proof.Machine

/-! ### Which lines are well formed, by the operands the mnemonic takes -/

theorem wellFormed_byte_iff {m : Mnemonic} (hm : m ∈ [.CRCB, .HBUILD]) (os : List Operand) :
    Line.wellFormed ⟨m, os⟩ = true ↔ ∃ v, IsByteOperand v ∧ os = [v] := by
  simp only [List.mem_cons, List.not_mem_nil, or_false] at hm
  obtain rfl | rfl := hm <;> rcases os with _ | ⟨v, _ | ⟨v', os⟩⟩ <;>
    simp [Line.wellFormed, isByte_iff]

theorem wellFormed_HRD_iff (os : List Operand) :
    Line.wellFormed ⟨.HRD, os⟩ = true ↔ ∃ i, IsIndexOperand i ∧ os = [i] := by
  rcases os with _ | ⟨i, _ | ⟨v, os⟩⟩ <;> simp [Line.wellFormed, isIndex_iff]

theorem wellFormed_HLD_iff (os : List Operand) : Line.wellFormed ⟨.HLD, os⟩ = true ↔
    ∃ i v, IsIndexOperand i ∧ IsByteOperand v ∧ os = [i, v] := by
  rcases os with _ | ⟨i, _ | ⟨v, _ | ⟨o, os⟩⟩⟩ <;>
    simp [Line.wellFormed, isIndex_iff, isByte_iff]

theorem wellFormed_CRC_iff (os : List Operand) :
    Line.wellFormed ⟨.CRC, os⟩ = true ↔ AllBytes os := all_isByte_iff os

theorem wellFormed_CHKPKT_iff (os : List Operand) :
    Line.wellFormed ⟨.CHKPKT, os⟩ = true ↔ AllBytes os := all_isByte_iff os

theorem wellFormed_MKHDR_iff (os : List Operand) :
    Line.wellFormed ⟨.MKHDR, os⟩ = true ↔ AllBytes os ∧ 1 ≤ os.length := by
  rw [Line.wellFormed, Bool.and_eq_true, decide_eq_true_iff, all_isByte_iff, and_comm]

theorem wellFormed_LRC_iff (os : List Operand) :
    Line.wellFormed ⟨.LRC, os⟩ = true ↔ AllBytes os ∧ os.length = 4 := by
  rw [Line.wellFormed, Bool.and_eq_true, beq_iff_eq, all_isByte_iff, and_comm]

theorem wellFormed_HLOAD_iff (os : List Operand) :
    Line.wellFormed ⟨.HLOAD, os⟩ = true ↔ AllBytes os ∧ os.length = 5 := by
  rw [Line.wellFormed, Bool.and_eq_true, beq_iff_eq, all_isByte_iff, and_comm]

theorem wellFormed_CHKFRAME_iff (os : List Operand) :
    Line.wellFormed ⟨.CHKFRAME, os⟩ = true ↔ AllBytes os ∧ 5 ≤ os.length := by
  rw [Line.wellFormed, Bool.and_eq_true, decide_eq_true_iff, all_isByte_iff, and_comm]

theorem isRefused_of_iff {m : Mnemonic} {os : List Operand} {P : Prop}
    (hiff : Line.wellFormed ⟨m, os⟩ = true ↔ P) (h : ¬ P) : IsRefused m os :=
  isRefused_of_not_wellFormed (Bool.eq_false_iff.2 (mt hiff.1 h))

/-! ### The words of a line as numbers -/

/-- The words of commands as numbers. -/
def wordNumbers (is : List Instr) : List Nat := is.map fun i => (encode i).toNat

theorem wordNumbers_cons (i : Instr) (is : List Instr) :
    wordNumbers (i :: is) = (encode i).toNat :: wordNumbers is := rfl

theorem wordNumbers_append (is js : List Instr) :
    wordNumbers (is ++ js) = wordNumbers is ++ wordNumbers js := List.map_append

theorem encode_crcb_operand {v : Operand} (hv : IsByteOperand v) :
    (encode (.crcb (operandByte v))).toNat = 0x2000 + operandValue v := by
  rw [encode, assembleWord_toNat, operandByte_toNat hv]
  rfl

theorem encode_hbuild_operand {v : Operand} (hv : IsByteOperand v) :
    (encode (.hbuild (operandByte v))).toNat = 0xB000 + operandValue v := by
  rw [encode, assembleWord_toNat, operandByte_toNat hv]
  rfl

theorem encode_hrd_operand {i : Operand} (hi : IsIndexOperand i) :
    (encode (.hrd (operandIndex i))).toNat = 0xA000 + 256 * operandValue i := by
  rw [encode, assembleWord_toNat, operandIndex_toNat hi]
  rfl

theorem encode_hld_operand (i : HdrIndex) {v : Operand} (hv : IsByteOperand v) :
    (encode (.hld i (operandByte v))).toNat = 0x9000 + 256 * i.toNat + operandValue v := by
  rw [encode, assembleWord_toNat, operandByte_toNat hv]
  rfl

theorem wordNumbers_absorbAll {os : List Operand} (h : AllBytes os) :
    wordNumbers (absorbAll (os.map operandByte)) = absorbWords os := by
  rw [absorbAll, absorbWords, wordNumbers_cons, wordNumbers, List.map_map, List.map_map]
  exact congrArg (0x1000 :: ·) (List.map_congr_left fun v hv => encode_crcb_operand (h v hv))

theorem allBytes_cons {o : Operand} {os : List Operand} :
    AllBytes (o :: os) ↔ IsByteOperand o ∧ AllBytes os := List.forall_mem_cons

theorem wordNumbers_hload {a b c d e : Operand} (h : AllBytes [a, b, c, d, e]) :
    wordNumbers (expand (.hload (operandByte a) (operandByte b) (operandByte c) (operandByte d)
      (operandByte e))) = loadWords a b c d e := by
  simp only [allBytes_cons] at h
  obtain ⟨ha, hb, hc, hd, he, -⟩ := h
  simp [expand, wordNumbers, loadWords, encode_hld_operand, *]

theorem wordNumbers_lrc {a b c d : Operand} (h : AllBytes [a, b, c, d]) :
    wordNumbers (expand (.lrc (operandByte a) (operandByte b) (operandByte c) (operandByte d))) =
      [0x9100 + operandValue a, 0x9200 + operandValue b, 0x9300 + operandValue c,
        0x9400 + operandValue d, 0x5000] := by
  simp only [allBytes_cons] at h
  obtain ⟨ha, hb, hc, hd, -⟩ := h
  simp [expand, wordNumbers, encode_hld_operand, *]
  rfl

/-! ### What a line of each mnemonic assembles to -/

theorem assemblesTo_plain {m : Mnemonic} {ws : List Nat}
    (hm : ∀ os, Line.wellFormed ⟨m, os⟩ = os.isEmpty)
    (hws : wordNumbers (lineInstrs ⟨m, []⟩) = ws) :
    AssemblesTo m [] ws ∧ ∀ os, os ≠ [] → IsRefused m os :=
  ⟨assemblesTo_of_wellFormed (hm []) hws, fun os hos =>
    isRefused_of_iff ((Bool.eq_iff_iff.1 (hm os)).trans List.isEmpty_iff) hos⟩

/-- The nine mnemonics without operands. -/
theorem assemblesTo_plain_lines :
    ∀ l ∈ [(Mnemonic.NOP, [0x0000]), (.CRCINIT, [0x1000]), (.CRCRD, [0x3000]), (.CNTRD, [0x4000]),
        (.LRCRD, [0x5000]), (.HCLR, [0x8000]), (.HVALID, [0xC000]), (.PVALID, [0xD000]),
        (.HREAD, [0xA000, 0xA100, 0xA200, 0xA300, 0xA400])],
      AssemblesTo l.1 [] l.2 ∧ ∀ os, os ≠ [] → IsRefused l.1 os := by
  simp only [List.forall_mem_cons]
  refine ⟨?_, ?_, ?_, ?_, ?_, ?_, ?_, ?_, ?_, by simp⟩ <;>
    exact assemblesTo_plain (fun _ => rfl) rfl

/-- The two mnemonics with one byte operand. -/
theorem assemblesTo_byte_lines : ∀ l ∈ [(Mnemonic.CRCB, 0x2000), (.HBUILD, 0xB000)],
    (∀ v, IsByteOperand v → AssemblesTo l.1 [v] [l.2 + operandValue v]) ∧
      ∀ os, (∀ v, IsByteOperand v → os ≠ [v]) → IsRefused l.1 os := by
  have hrefused {m : Mnemonic} (hm : m ∈ [.CRCB, .HBUILD]) (os : List Operand)
      (hos : ∀ v, IsByteOperand v → os ≠ [v]) : IsRefused m os :=
    isRefused_of_iff (wellFormed_byte_iff hm os) fun ⟨v, hv, h⟩ => hos v hv h
  simp only [List.forall_mem_cons]
  refine ⟨⟨fun v hv => ?_, hrefused (by decide)⟩, ⟨fun v hv => ?_, hrefused (by decide)⟩, by simp⟩
  · exact assemblesTo_of_wellFormed ((isByte_iff v).2 hv)
      (congrArg (fun n => [n]) (encode_crcb_operand hv))
  · exact assemblesTo_of_wellFormed ((isByte_iff v).2 hv)
      (congrArg (fun n => [n]) (encode_hbuild_operand hv))

theorem assemblesTo_HRD {i : Operand} (hi : IsIndexOperand i) :
    AssemblesTo .HRD [i] [0xA000 + 256 * operandValue i] :=
  assemblesTo_of_wellFormed ((isIndex_iff i).2 hi) (congrArg (fun n => [n]) (encode_hrd_operand hi))

theorem assemblesTo_HLD {i v : Operand} (hi : IsIndexOperand i) (hv : IsByteOperand v) :
    AssemblesTo .HLD [i, v] [0x9000 + 256 * operandValue i + operandValue v] := by
  refine assemblesTo_of_wellFormed ((wellFormed_HLD_iff _).2 ⟨i, v, hi, hv, rfl⟩) ?_
  rw [← operandIndex_toNat hi, ← encode_hld_operand _ hv]
  rfl

theorem assemblesTo_CRC {os : List Operand} (h : AllBytes os) :
    AssemblesTo .CRC os (absorbWords os ++ [0x3000]) := by
  refine assemblesTo_of_wellFormed ((wellFormed_CRC_iff os).2 h) ?_
  rw [← wordNumbers_absorbAll h]
  exact wordNumbers_append _ [.crcrd]

theorem assemblesTo_CHKPKT {os : List Operand} (h : AllBytes os) :
    AssemblesTo .CHKPKT os (absorbWords os ++ [0xD000]) := by
  refine assemblesTo_of_wellFormed ((wellFormed_CHKPKT_iff os).2 h) ?_
  rw [← wordNumbers_absorbAll h]
  exact wordNumbers_append _ [.pvalid]

theorem assemblesTo_MKHDR {id : Operand} {os : List Operand} (h : AllBytes (id :: os)) :
    AssemblesTo .MKHDR (id :: os) (absorbWords os ++ [0xB000 + operandValue id]) := by
  obtain ⟨hid, hos⟩ := allBytes_cons.1 h
  refine assemblesTo_of_wellFormed ((wellFormed_MKHDR_iff _).2 ⟨h, Nat.le_add_left _ _⟩) ?_
  rw [← wordNumbers_absorbAll hos, ← encode_hbuild_operand hid]
  exact wordNumbers_append _ [.hbuild _]

theorem assemblesTo_CHKFRAME {a b c d e : Operand} {p : List Operand}
    (h : AllBytes (a :: b :: c :: d :: e :: p)) :
    AssemblesTo .CHKFRAME (a :: b :: c :: d :: e :: p)
      (loadWords a b c d e ++ [0xC000] ++ absorbWords p ++ [0xD000]) := by
  obtain ⟨hhdr, hp⟩ : AllBytes [a, b, c, d, e] ∧ AllBytes p := List.forall_mem_append.1 h
  refine assemblesTo_of_wellFormed ((wellFormed_CHKFRAME_iff _).2 ⟨h, Nat.le_add_left _ _⟩) ?_
  rw [← wordNumbers_absorbAll hp, ← wordNumbers_hload hhdr]
  simp only [wordNumbers, lineInstrs, expand, List.map_append, List.map_cons, List.map_nil]
  rfl

/-! ### A text, line by line -/

theorem assemble_line {text : List Char} (h : '\n' ∉ text) :
    assemble text = (assembleLine text).map (·.map encode) := by
  rw [assemble, (splitLines_newline h).1]
  cases hline : assembleLine text <;> simp [assembleLines, hline, Except.map]

theorem assemble_ok_iff {text : List Char} {ws : List CommandWord} : assemble text = .ok ws ↔
    ∃ is, assembleLines (splitLines text) = .ok is ∧ is.map encode = ws := by
  rw [assemble]
  cases assembleLines (splitLines text) <;> simp

theorem assemble_append {text more : List Char} {is : List Instr} {ws : List CommandWord}
    (h : '\n' ∉ text) (hline : assembleLine text = .ok is) (hmore : assemble more = .ok ws) :
    assemble (text ++ '\n' :: more) = .ok (is.map encode ++ ws) := by
  obtain ⟨js, hjs, rfl⟩ := assemble_ok_iff.1 hmore
  refine assemble_ok_iff.2 ⟨is ++ js, ?_, List.map_append⟩
  rw [(splitLines_newline h).2]
  simp only [assembleLines, hline, hjs]

/-- Settles O60: a mnemonic's line assembles when its operands are what the mnemonic takes, which is
when it is well formed, and is refused otherwise (`assembleLine_lineText`). -/
theorem assemblerRangesAndWords : Obligations.AssemblerRangesAndWords := by
  refine ⟨fun _ => rfl, fun _ => rfl, assemblesTo_plain_lines, assemblesTo_byte_lines,
    fun i => assemblesTo_HRD, fun os hos => ?_, fun i v => assemblesTo_HLD, fun os hos => ?_,
    fun os => assemblesTo_CRC, fun os => assemblesTo_CHKPKT, fun id os => assemblesTo_MKHDR,
    fun a b c d h => ?_, fun a b c d e h => ?_, fun a b c d e p => assemblesTo_CHKFRAME,
    fun os h => ⟨?_, ?_⟩, fun os h => ?_, fun os h => ?_, fun os h => ?_, fun os h => ?_,
    fun text => assemble_line, fun text more is ws => assemble_append⟩
  · exact isRefused_of_iff (wellFormed_HRD_iff os) fun ⟨i, hi, h⟩ => hos i hi h
  · exact isRefused_of_iff (wellFormed_HLD_iff os) fun ⟨i, v, hi, hv, h⟩ => hos i v hi hv h
  · exact assemblesTo_of_wellFormed ((wellFormed_LRC_iff _).2 ⟨h, rfl⟩) (wordNumbers_lrc h)
  · exact assemblesTo_of_wellFormed ((wellFormed_HLOAD_iff _).2 ⟨h, rfl⟩) (wordNumbers_hload h)
  · exact isRefused_of_iff (wellFormed_CRC_iff os) h
  · exact isRefused_of_iff (wellFormed_CHKPKT_iff os) h
  · exact isRefused_of_iff (wellFormed_MKHDR_iff os) h
  · exact isRefused_of_iff (wellFormed_LRC_iff os) h
  · exact isRefused_of_iff (wellFormed_HLOAD_iff os) h
  · exact isRefused_of_iff (wellFormed_CHKFRAME_iff os) h

end Sys2Proof.Machine
